-- ==== Sys2Proof/Word.lean ====
section
/-! DEFINITION. The words B3CORE computes on: 32-bit words, bytes, chaining values and 16-word
blocks (00_scope.md R7, R16). -/

namespace Sys2Proof

/-- A word: an unsigned 32-bit integer (R7 `WORD_BITS`). -/
abbrev Word := BitVec 32

/-- One byte of the chunk buffer, and the flag byte (R7 `FLAG_BITS`). -/
abbrev Byte := BitVec 8

/-- A chaining value: 8 words in order (R7 `CV_WORDS`, R16). -/
abbrev Cv := Vector Word 8

/-- Sixteen words: a message block, or the state of the compression (R7 `STATE_WORDS`). -/
abbrev Block := Vector Word 16

end Sys2Proof
end

