-- ==== Sys2Proof/Syntax.lean ====
section
/-! DEFINITION. The command set: one constructor per row of spec/opcode_table.json
(30_encoding.md R81). -/

namespace Sys2Proof

/-- A command. The only operand field of a command word is `R`, the root option of CHUNK and PARENT
(30_encoding.md R80, R86); every other operand comes from registers and internal state. -/
inductive Instr where
  /-- COMPRESS: one compression of register operands (40_compress.md R113). -/
  | compress
  /-- INIT: latch the mode and start a new hash (42_tree.md R151). -/
  | init
  /-- CHUNK, or CHUNK.R when `root` (41_chunk.md R139). -/
  | chunk (root : Bool)
  /-- PARENT, or PARENT.R when `root` (42_tree.md R153). -/
  | parent (root : Bool)
  /-- COMMIT: a full chunk becomes a leaf of the tree (42_tree.md R157). -/
  | commit
  /-- FINALIZE: the root of the tree (42_tree.md R160). -/
  | finalize
  /-- OUTPUT: one output block of the root (43_output.md R182). -/
  | output
  deriving DecidableEq, Repr

end Sys2Proof
end

