-- ==== Sys2Proof/WellFormed.lean ====
section
/-! DEFINITION. What is legal: a command word (30_encoding.md R82), a bus access (20_memory.md R62),
and a command. -/

namespace Sys2Proof

/-- R82, first check: the opcode field names one of the seven commands. -/
def opcodeAssigned (c : Word) : Bool :=
  1 ≤ (c.extractLsb' 0 4).toNat && (c.extractLsb' 0 4).toNat ≤ 7

/-- R82, second check: the reserved fields, bits 7:4 and 31:9, are zero. -/
def reservedClear (c : Word) : Bool :=
  c.extractLsb' 4 4 == 0 && c.extractLsb' 9 23 == 0

/-- R82, third check: `R` is zero unless the opcode is 0x3 (CHUNK) or 0x4 (PARENT). -/
def rootAllowed (c : Word) : Bool :=
  !c.getLsbD 8 || c.extractLsb' 0 4 == 3 || c.extractLsb' 0 4 == 4

/-- A command word is legal iff all three checks of R82 hold. -/
def legalWord (c : Word) : Bool :=
  opcodeAssigned c && reservedClear c && rootAllowed c

/-- A bus access that exists: 32 bits wide, aligned to 4, inside the 4096-byte window
(20_memory.md R62). -/
def wfAccess (off size : Nat) : Bool :=
  size == 4 && off % 4 == 0 && off < 4096

/-- Every command of the type is well formed: a command has no operand field that could hold a bad
value (30_encoding.md R80). The checks of R82 are checks of words, `legalWord`. -/
def Instr.wf : Instr → Bool
  | .compress | .init | .chunk _ | .parent _ | .commit | .finalize | .output => true

end Sys2Proof
end

