-- ==== Sys2Proof/Decode.lean ====
section
/-! DEFINITION. Reading a command word, and writing one (30_encoding.md R80 to R82). -/

namespace Sys2Proof

/-- Why a command word names no command (30_encoding.md R82). Every one of these completes with
ILLEGAL_CMD. -/
inductive DecodeError where
  /-- Bits 7:4 or 31:9 are not zero. -/
  | reservedBits
  /-- Opcode 0x0 or 0x8 to 0xF. -/
  | reservedOpcode
  /-- `R = 1` on a command other than CHUNK and PARENT. -/
  | rootNotAllowed
  deriving DecidableEq, Repr

/-- The `OP` field, bits 3:0 (R80). -/
def opField (w : Word) : BitVec 4 := w.extractLsb' 0 4

/-- The `R` field, bit 8 (R80). -/
def rField (w : Word) : Bool := w.getLsbD 8

/-- A command without root option (R81: "R allowed: no"). -/
def plainCommand (i : Instr) (r : Bool) : Except DecodeError Instr :=
  if r then .error .rootNotAllowed else .ok i

/-- The decoder: total on all 2^32 command words (R81, R82). -/
def decode (w : Word) : Except DecodeError Instr :=
  if w.extractLsb' 4 4 ≠ 0 ∨ w.extractLsb' 9 23 ≠ 0 then .error .reservedBits
  else match (opField w).toNat with
    | 1 => plainCommand .compress (rField w)
    | 2 => plainCommand .init (rField w)
    | 3 => .ok (.chunk (rField w))
    | 4 => .ok (.parent (rField w))
    | 5 => plainCommand .commit (rField w)
    | 6 => plainCommand .finalize (rField w)
    | 7 => plainCommand .output (rField w)
    | _ => .error .reservedOpcode

/-- A command word from its two fields, the rest zero (R80). -/
def commandWord (op : BitVec 4) (r : Bool) : Word :=
  (0 : BitVec 23) ++ (BitVec.ofBool r ++ ((0 : BitVec 4) ++ op))

/-- The encoder, from the opcode map (R81). -/
def encode : Instr → Word
  | .compress => commandWord 1 false
  | .init => commandWord 2 false
  | .chunk r => commandWord 3 r
  | .parent r => commandWord 4 r
  | .commit => commandWord 5 false
  | .finalize => commandWord 6 false
  | .output => commandWord 7 false

/-- The command the decoder reads from an opcode-table word of `nbits` bits. A command is one 32-bit
word (R87): the bits above `nbits` are zero, and a longer word is no command (log 13). -/
def decodeTableWord (nbits w : Nat) : Option Instr :=
  let v := w % 2 ^ nbits
  if v < 2 ^ 32 then
    match decode (BitVec.ofNat 32 v) with
    | .ok i => some i
    | .error _ => none
  else none

end Sys2Proof
end

