-- ==== Sys2Proof/Config.lean ====
section
/-! DEFINITION. What the spec leaves OPEN (92_eei_decisions.md D40) and the values it leaves
unspecified (93_implementation_defined.md part 2), as free values: constants with no body, so that
nothing can be proved about which value they are. -/

namespace Sys2Proof.Config

/-- BUF_RESET (00_scope.md R8, 10_state.md R36 and R48; U1): what the byte at a window offset of the
chunk buffer holds after a reset until the host writes it. First argument: which reset drew it
(`State.draws`); second: the offset. Free value (log 3). -/
opaque bufReset : Nat → Nat → Byte

/-- What a stack entry holds after a reset (10_state.md R42; U2 "any value"). First argument: which
reset; second: the entry. Free value (log 4). -/
opaque stackReset : Nat → Nat → Cv

/-- om_cv after a reset (10_state.md R43; U2). Free value (log 4). -/
opaque omCvReset : Nat → Cv

/-- om_m after a reset (10_state.md R43; U2). Free value (log 4). -/
opaque omMReset : Nat → Block

/-- om_blen after a reset: any length R43 allows, 0 to 64 (U2). Free value (log 4). -/
opaque omBlenReset : Nat → Fin 65

/-- om_flags after a reset (10_state.md R43; U2). Free value (log 4). -/
opaque omFlagsReset : Nat → Byte

/-- What reading a stack entry that does not exist (index 64 and above) gives. No run from reset
reads one (42_tree.md R165). Free value (log 5). -/
opaque noEntry : Nat → Cv

/-- Bytes of an output stream past its end at `2^70` bytes, where the host "would have to reuse
counters, and that is outside this spec" (43_output.md R186). Free value (log 17). -/
opaque pastStream : Nat → Byte

/-- The number of the 4096-byte page the platform puts the window in (20_memory.md R61; U4).
Free value (log 10). -/
opaque basePage : Nat

/-- `BASE`: the system address of the window, a multiple of 4096 (20_memory.md R61). -/
def base : Nat := 4096 * basePage

end Sys2Proof.Config
end

