-- ==== Sys2Proof/Machine/Constants.lean ====
section
/-! DEFINITION. The algorithm's constants: IV, π and the schedule (40_compress.md R100 to R103). -/

namespace Sys2Proof.Machine

/-- The initialization vector (40_compress.md R100). PRESUMED: the values are the spec's own
"from general knowledge, not in source" (93_implementation_defined.md G1; log 8). -/
def IV : Cv :=
  #v[0x6A09E667, 0xBB67AE85, 0x3C6EF372, 0xA54FF53A, 0x510E527F, 0x9B05688C, 0x1F83D9AB, 0x5BE0CD19]

/-- The message permutation π (R102). -/
def perm : Vector (Fin 16) 16 := #v[2, 6, 3, 10, 7, 0, 4, 13, 1, 11, 12, 5, 9, 14, 15, 8]

/-- Row `r` of MSG_SCHEDULE: row 0 is the identity, and `next[i] = prev[π[i]]` (R103). -/
def schedule : Nat → Vector (Fin 16) 16
  | 0 => Vector.ofFn id
  | r + 1 =>
    let prev := schedule r
    Vector.ofFn fun i => prev[perm[i]]

end Sys2Proof.Machine
end

