-- ==== Sys2Proof/Machine/State.lean ====
section
/-! DEFINITION. The state of B3CORE (10_state.md), the ways a step can stop, and the state after
reset (70_reset_and_hazards.md R231). -/

namespace Sys2Proof.Machine

/-- Why B3CORE stops with a fault: never. "No case in this spec leaves the hardware stuck"
(60_exceptions.md R219), and a command error is a next state, "not a model fault". The type has no
constructor, so nothing raises one (log 11, safe). -/
inductive Fault where
  deriving DecidableEq, Repr

/-- Why the model refuses a step. -/
inductive Refusal where
  /-- Raised by an arm of `exec` whose command has no meaning yet; safe. No arm does. -/
  | notModelled (mnemonic : String)
  /-- Raised by a bus access that is not 32 bits wide (20_memory.md R62 "refuses"); safe (log 7). -/
  | notWordAccess (size : Nat)
  /-- Raised by a bus access at an offset that is no multiple of 4 (R62); safe (log 7). -/
  | misaligned (off : Nat)
  /-- Raised by a bus access at an offset of 4096 or more (R62); safe (log 7). -/
  | outsideWindow (off : Nat)
  deriving DecidableEq, Repr

/-- The error codes of `STATUS.ERRCODE` (60_exceptions.md R200). Codes 6 to 15 are "reserved, never
reported" and have no constructor (log 9). -/
inductive ErrCode where
  /-- 0 NONE -/
  | none
  /-- 1 ILLEGAL_CMD -/
  | illegalCmd
  /-- 2 BAD_BLOCK_LEN -/
  | badBlockLen
  /-- 3 BAD_CHUNK_LEN -/
  | badChunkLen
  /-- 4 NO_OUTPUT -/
  | noOutput
  /-- 5 COUNT_OVERFLOW -/
  | countOverflow
  deriving DecidableEq, Repr

/-- What can happen next: one host access, the engine's turn, or reset, "separate events in one
total order" (60_exceptions.md R208, 20_memory.md R67). -/
inductive Event where
  /-- A host bus read of `size` bytes at window offset `off` (20_memory.md R65). -/
  | read (off size : Nat)
  /-- A host bus write of `v` (20_memory.md R64). -/
  | write (off size : Nat) (v : Word)
  /-- The engine's turn: the completion of the pending command, if one is (30_encoding.md R84). -/
  | engine
  /-- `rst_n = 0` at a clock edge (70_reset_and_hazards.md R230). -/
  | reset
  deriving DecidableEq, Repr

/-- The stored bits of `STATUS` (10_state.md R25). BUSY is whether a command is pending; OMV, SP and
LMODE are views of the internal state. -/
structure Status where
  done : Bool
  err : Bool
  ovr : Bool
  errCode : ErrCode
  deriving DecidableEq, Repr

/-- The registers the host writes and commands only read (10_state.md R28 to R33, R35), each at its
defined bits. -/
structure Regs where
  mode : BitVec 2
  chunkLen : BitVec 11
  blockLen : BitVec 7
  flags : Byte
  ctrLo : Word
  ctrHi : Word
  octrLo : Word
  octrHi : Word
  key : Cv
  cv : Cv
  m : Block
  deriving DecidableEq, Repr

/-- The tree engine's state (10_state.md R40 to R42). Entry 0 of the stack is the base. -/
structure Tree where
  keyCv : Cv
  baseFlags : Byte
  lmode : BitVec 2
  chunkCount : BitVec 64
  stack : Vector Cv 64
  sp : BitVec 7
  deriving DecidableEq, Repr

/-- The inputs of one compression but its counter: input CV, message, block length, flag byte. The
output material is one of these (10_state.md R43, 43_output.md R180). -/
structure Material where
  cv : Cv
  m : Block
  blen : BitVec 7
  flags : Byte
  deriving DecidableEq, Repr

/-- The bytes of the chunk buffer that are written, by window offset, in one canonical form
(`Memory.wf`, Machine/Memory.lean). -/
abbrev Memory := List Host.Cell

/-- The state of B3CORE. -/
structure State where
  /-- The command word being executed, and with it STATUS.BUSY (R44, R25; log 1). -/
  pending : Option Word
  /-- The stored bits of STATUS (R25). -/
  status : Status
  /-- CTRL.IRQ_EN (R27). -/
  irqEn : Bool
  /-- The host's input registers (R28 to R33, R35). -/
  regs : Regs
  /-- OUT(0..16) (R37). -/
  out : Block
  /-- The chunk buffer (R36). -/
  mem : Memory
  /-- The mode, the count and the stack (R40 to R42). -/
  tree : Tree
  /-- om_cv, om_m, om_blen, om_flags (R43). -/
  om : Material
  /-- The valid bit of the output material (R43). -/
  omv : Bool
  /-- The port `rdata`: what the last bus read returned (R22; log 6). -/
  rdata : Word
  /-- The model's own: the events still to happen, the first one next (log 2). -/
  inputs : List Event
  /-- The model's own: how many resets have drawn the free values (log 3). -/
  draws : Nat
  deriving DecidableEq, Repr

/-- The reset state (70_reset_and_hazards.md R231) of reset number `draw`, with the events that
follow it. Whatever R231 calls unspecified is a free value of that reset. -/
def State.afterReset (draw : Nat) (inputs : List Event) : State where
  pending := none
  status := { done := false, err := false, ovr := false, errCode := .none }
  irqEn := false
  regs :=
    { mode := 0, chunkLen := 0, blockLen := 0, flags := 0
      ctrLo := 0, ctrHi := 0, octrLo := 0, octrHi := 0
      key := Vector.replicate 8 0, cv := Vector.replicate 8 0, m := Vector.replicate 16 0 }
  out := Vector.replicate 16 0
  mem := []
  tree :=
    { keyCv := IV, baseFlags := 0x00, lmode := 0, chunkCount := 0
      stack := Vector.ofFn fun k => Config.stackReset draw k, sp := 0 }
  om :=
    { cv := Config.omCvReset draw, m := Config.omMReset draw
      blen := BitVec.ofNat 7 (Config.omBlenReset draw).val, flags := Config.omFlagsReset draw }
  omv := false
  rdata := 0
  inputs := inputs
  draws := draw

/-- The machine right after reset, with nothing yet to happen. -/
def State.reset : State := State.afterReset 0 []

end Sys2Proof.Machine
end

