-- ==== Sys2Proof/Machine/Memory.lean ====
section
/-! DEFINITION. The chunk buffer as memory (10_state.md R36): bytes at the window offsets 0x400 to
0x7FF, the written ones listed in one canonical form (log 3, log 12). -/

namespace Sys2Proof.Machine

/-- Window offset of `BUF0` (10_state.md R23). -/
def bufBase : Nat := 0x400

/-- The chunk buffer's size in bytes (00_scope.md R8 `CHUNK_BUF_BYTES`). -/
def bufBytes : Nat := 1024

/-- What an address that is not listed reads as: the byte reset number `d` drew there
(10_state.md R36, R48: "A model must then carry the draw rather than pick zero"). -/
def Memory.unlisted (d : Nat) (a : Nat) : Byte := Config.bufReset d a

/-- The listed byte at an address. -/
def Memory.find? : Memory → Nat → Option Byte
  | [], _ => none
  | (b, x) :: rest, a => if b = a then some x else Memory.find? rest a

/-- One byte of memory. -/
def Memory.read (d : Nat) (mem : Memory) (a : Nat) : Byte :=
  (Memory.find? mem a).getD (Memory.unlisted d a)

/-- List a byte at its place in the rising order. -/
def Memory.insert : Memory → Nat → Byte → Memory
  | [], a, v => [(a, v)]
  | (b, x) :: rest, a, v =>
    if a < b then (a, v) :: (b, x) :: rest
    else if a = b then (a, v) :: rest
    else (b, x) :: Memory.insert rest a v

/-- Take an address off the list. -/
def Memory.erase : Memory → Nat → Memory
  | [], _ => []
  | (b, x) :: rest, a => if a = b then rest else (b, x) :: Memory.erase rest a

/-- Write one byte. Writing what an unlisted address reads as removes the entry. -/
def Memory.write (d : Nat) (mem : Memory) (a : Nat) (v : Byte) : Memory :=
  if v = Memory.unlisted d a then Memory.erase mem a else Memory.insert mem a v

/-- The addresses rise strictly, each above `lo`. -/
def Memory.rising : Nat → Memory → Bool
  | _, [] => true
  | lo, (a, _) :: rest => lo ≤ a && Memory.rising (a + 1) rest

/-- The canonical form: addresses of the chunk buffer, strictly rising, none listed with the byte it
would read as unlisted. -/
def Memory.wf (d : Nat) (mem : Memory) : Bool :=
  Memory.rising bufBase mem &&
    mem.all fun c => c.1 < bufBase + bufBytes && c.2 != Memory.unlisted d c.1

/-- `buf(k)`: byte `k` of the chunk buffer (10_state.md R36). -/
def State.buf (s : State) (k : Nat) : Byte := Memory.read s.draws s.mem (bufBase + k)

/-- Write byte `k` of the chunk buffer. -/
def State.setBuf (s : State) (k : Nat) (v : Byte) : State :=
  { s with mem := Memory.write s.draws s.mem (bufBase + k) v }

end Sys2Proof.Machine
end

