-- ==== Sys2Proof/Machine/Operands.lean ====
section
/-! DEFINITION. How operands are put together (30_encoding.md R86): little-endian words
(00_scope.md R13), 64-bit counters, counting functions (R11), the chaining value of a result. -/

namespace Sys2Proof.Machine

/-- Word `i` of a byte sequence, little-endian: `le32(B, i)` (00_scope.md R13). -/
def le32 (b : Nat → Byte) (i : Nat) : Word :=
  b (4 * i + 3) ++ (b (4 * i + 2) ++ (b (4 * i + 1) ++ b (4 * i)))

/-- Byte `k` of a word: `w[8k+7:8k]`, so `le_bytes(w)` is bytes 0, 1, 2, 3 (R13, R36). -/
def byteOf (w : Word) (k : Nat) : Byte := w.extractLsb' (8 * k) 8

/-- A 64-bit counter from its two registers, `{hi, lo}` (R9, R86). -/
def counter64 (hi lo : Word) : BitVec 64 := hi ++ lo

/-- The low half of a counter, `counter[31:0]`. -/
def lowHalf (c : BitVec 64) : Word := c.extractLsb' 0 32

/-- The high half of a counter, `counter[63:32]`. -/
def highHalf (c : BitVec 64) : Word := c.extractLsb' 32 32

/-- `CV_of(v) = v[0..8]` (40_compress.md R110). -/
def cvOf (v : Block) : Cv := Vector.ofFn fun (i : Fin 8) => v[i.val]

/-- A message block of two chaining values, `left || right` (00_scope.md R12, 42_tree.md R152). -/
def joinCvs (left right : Cv) : Block := left ++ right

/-- Number of trailing zero bits of `n` among its low `k` bits. -/
def trailingZeros : Nat → Nat → Nat
  | 0, _ => 0
  | k + 1, n => if n % 2 = 1 then 0 else trailingZeros k (n / 2) + 1

/-- Number of set bits of `n` among its low `k` bits. -/
def setBits : Nat → Nat → Nat
  | 0, _ => 0
  | k + 1, n => n % 2 + setBits k (n / 2)

/-- `ctz64(x)`, which the rules use for `0 < x` only (00_scope.md R11). -/
def ctz64 (x : BitVec 64) : Nat := trailingZeros 64 x.toNat

/-- `popcount64(x)` (00_scope.md R11). -/
def popcount64 (x : BitVec 64) : Nat := setBits 64 x.toNat

/-- The counter of COMPRESS and CHUNK, `{CTR_HI, CTR_LO}` (10_state.md R32). -/
def State.ctr (s : State) : BitVec 64 := counter64 s.regs.ctrHi s.regs.ctrLo

/-- The output-block counter of OUTPUT, `{OCTR_HI, OCTR_LO}` (10_state.md R33). -/
def State.octr (s : State) : BitVec 64 := counter64 s.regs.octrHi s.regs.octrLo

/-- The left child of PARENT, `M(0..8)` (10_state.md R35). -/
def State.leftChild (s : State) : Cv := cvOf s.regs.m

/-- The right child of PARENT, `M(8..16)` (10_state.md R35). -/
def State.rightChild (s : State) : Cv := Vector.ofFn fun (i : Fin 8) => s.regs.m[i.val + 8]

/-- Stack entry `k`, counting from the base. There are 64 entries (10_state.md R42); no run reads
another index (42_tree.md R165), and one that did would get a free value (log 5). -/
def State.stackEntry (s : State) (k : Nat) : Cv :=
  if h : k < 64 then s.tree.stack[k] else Config.noEntry k

end Sys2Proof.Machine
end

