-- ==== Sys2Proof/Machine/Flags.lean ====
section
/-! DEFINITION. The flag byte of a compression (40_compress.md R101, 41_chunk.md R134, 42_tree.md
R150 and R152), and the words STATUS and CTRL read as (10_state.md R25, R27). -/

namespace Sys2Proof.Machine

/-- CHUNK_START, bit 0: first block within a chunk (R101). -/
def flagChunkStart : Byte := 0x01
/-- CHUNK_END, bit 1: last block within a chunk. -/
def flagChunkEnd : Byte := 0x02
/-- PARENT, bit 2: the compression merges two CVs. -/
def flagParent : Byte := 0x04
/-- ROOT, bit 3: the compression yields extendable output. -/
def flagRoot : Byte := 0x08
/-- KEYED_HASH, bit 4. -/
def flagKeyedHash : Byte := 0x10
/-- DERIVE_KEY_CONTEXT, bit 5. -/
def flagDeriveKeyContext : Byte := 0x20
/-- DERIVE_KEY_MATERIAL, bit 6. -/
def flagDeriveKeyMaterial : Byte := 0x40

/-- A flag, if its condition holds. -/
def flagIf (c : Bool) (f : Byte) : Byte := if c then f else 0

/-- The flag byte of block `i` of `n` (41_chunk.md R134). -/
def blockFlags (base : Byte) (isRoot : Bool) (i n : Nat) : Byte :=
  base ||| flagIf (i == 0) flagChunkStart ||| flagIf (i + 1 == n) flagChunkEnd
    ||| flagIf (isRoot && i + 1 == n) flagRoot

/-- The flag byte of a parent compression (42_tree.md R152). -/
def parentFlags (base : Byte) (isRoot : Bool) : Byte :=
  base ||| flagParent ||| flagIf isRoot flagRoot

/-- The base flags INIT latches for a mode (42_tree.md R150, R151). -/
def modeFlags (md : BitVec 2) : Byte :=
  match md.toNat with
  | 0 => 0x00
  | 1 => flagKeyedHash
  | 2 => flagDeriveKeyContext
  | _ => flagDeriveKeyMaterial

/-- The key CV INIT latches for a mode: the IV in modes 0 and 2, KEY in modes 1 and 3
(42_tree.md R150). -/
def modeKeyCv (md : BitVec 2) (key : Cv) : Cv :=
  if md = 0 ∨ md = 2 then IV else key

/-- The 4-bit error code (60_exceptions.md R200). -/
def ErrCode.bits : ErrCode → BitVec 4
  | .none => 0
  | .illegalCmd => 1
  | .badBlockLen => 2
  | .badChunkLen => 3
  | .noOutput => 4
  | .countOverflow => 5

/-- STATUS.BUSY (10_state.md R25): a command is pending. -/
def State.busy (s : State) : Bool := s.pending.isSome

/-- The output `irq = CTRL.IRQ_EN & STATUS.DONE`, a level (60_exceptions.md R206). -/
def State.irq (s : State) : Bool := s.irqEn && s.status.done

/-- The word STATUS reads as (10_state.md R25), field by field from bit 31 down. -/
def State.statusWord (s : State) : Word :=
  (0 : BitVec 6) ++ (s.tree.lmode ++ ((0 : BitVec 1) ++ (s.tree.sp ++ ((0 : BitVec 7) ++
    (BitVec.ofBool s.omv ++ (s.status.errCode.bits ++ (BitVec.ofBool s.status.ovr ++
      (BitVec.ofBool s.status.err ++ (BitVec.ofBool s.status.done ++
        BitVec.ofBool s.busy)))))))))

end Sys2Proof.Machine
end

