-- ==== Sys2Proof/Machine/Ops.lean ====
section
/-! DEFINITION. The operations commands share: writing OUT and the output material, and how a
command ends, with or without an error (30_encoding.md R84, 60_exceptions.md R203). -/

namespace Sys2Proof.Machine

/-- `for i in 0..16: x[OUT(i)] <- res[i]` (10_state.md R37). -/
def State.setOut (s : State) (res : Block) : State := { s with out := res }

/-- `(om_cv, om_m, om_blen, om_flags) <- om; omv <- 1` (43_output.md R181). -/
def State.setMaterial (s : State) (om : Material) : State := { s with om := om, omv := true }

/-- The STATUS half of a completion (30_encoding.md R84): BUSY <- 0, DONE <- 1, and ERR and ERRCODE
if the code is not 0. -/
def State.complete (s : State) (code : ErrCode) : State :=
  { s with
    pending := none
    status :=
      if code = .none then { s.status with done := true }
      else { s.status with done := true, err := true, errCode := code } }

/-- A command that performed its writes ends without error (R84 with code 0). -/
def finish (s : State) : Host.Outcome State Fault Refusal := .next (s.complete .none)

/-- `raise CmdError(code)`: the command ends before it has written anything (60_exceptions.md R203).
This is B3CORE's whole way of taking an exception: no mode changes, nothing is saved, no control
moves (R209). -/
def raise (code : ErrCode) (s : State) : Host.Outcome State Fault Refusal :=
  .next (s.complete code)

/-- Issue of a command word while idle (30_encoding.md R83). -/
def State.issue (s : State) (c : Word) : State :=
  { s with
    pending := some c
    status := { s.status with done := false, err := false, errCode := .none } }

/-- A write dropped because BUSY = 1 sets the sticky OVR (20_memory.md R64, 60_exceptions.md R205). -/
def State.overrun (s : State) : State :=
  { s with status := { s.status with ovr := true } }

/-- A write to STATUS, write-one-to-clear (10_state.md R26). It is how a host acknowledges a
completion or an error (60_exceptions.md R210: "There is no trap return"). -/
def State.writeStatus (s : State) (v : Word) : State :=
  { s with
    status :=
      { done := if v.getLsbD 1 then false else s.status.done
        err := if v.getLsbD 2 then false else s.status.err
        errCode := if v.getLsbD 2 then .none else s.status.errCode
        ovr := if v.getLsbD 3 then false else s.status.ovr } }

end Sys2Proof.Machine
end

