-- ==== Sys2Proof/Machine/Registers.lean ====
section
/-! DEFINITION. The register map (10_state.md R23): which register stands at an offset, what a read
of it returns and what a write stores. -/

namespace Sys2Proof.Machine

/-- The registers of the window (R23). A reserved offset is one of the places that read as zero and
ignore writes (R38). -/
inductive Reg where
  | cmd
  | status
  | ctrl
  | mode
  | chunkLen
  | blockLen
  | flags
  | ctrLo
  | ctrHi
  | octrLo
  | octrHi
  | countLo
  | countHi
  | key (i : Fin 8)
  | cv (i : Fin 8)
  | m (i : Fin 16)
  | out (i : Fin 16)
  | buf (w : Fin 256)
  | reserved (off : Nat)
  deriving DecidableEq, Repr

/-- The offset of a register (R23). -/
def Reg.offset : Reg → Nat
  | .cmd => 0x000
  | .status => 0x004
  | .ctrl => 0x008
  | .mode => 0x00C
  | .chunkLen => 0x010
  | .blockLen => 0x014
  | .flags => 0x018
  | .ctrLo => 0x020
  | .ctrHi => 0x024
  | .octrLo => 0x028
  | .octrHi => 0x02C
  | .countLo => 0x030
  | .countHi => 0x034
  | .key i => 0x040 + 4 * i.val
  | .cv i => 0x060 + 4 * i.val
  | .m i => 0x080 + 4 * i.val
  | .out i => 0x0C0 + 4 * i.val
  | .buf w => 0x400 + 4 * w.val
  | .reserved off => off

/-- The register at an aligned offset of the window (R23). -/
def regAt (off : Nat) : Reg :=
  if off = 0x000 then .cmd
  else if off = 0x004 then .status
  else if off = 0x008 then .ctrl
  else if off = 0x00C then .mode
  else if off = 0x010 then .chunkLen
  else if off = 0x014 then .blockLen
  else if off = 0x018 then .flags
  else if off = 0x020 then .ctrLo
  else if off = 0x024 then .ctrHi
  else if off = 0x028 then .octrLo
  else if off = 0x02C then .octrHi
  else if off = 0x030 then .countLo
  else if off = 0x034 then .countHi
  else if h : 0x040 ≤ off ∧ off < 0x060 then .key ⟨(off - 0x040) / 4, by omega⟩
  else if h : 0x060 ≤ off ∧ off < 0x080 then .cv ⟨(off - 0x060) / 4, by omega⟩
  else if h : 0x080 ≤ off ∧ off < 0x0C0 then .m ⟨(off - 0x080) / 4, by omega⟩
  else if h : 0x0C0 ≤ off ∧ off < 0x100 then .out ⟨(off - 0x0C0) / 4, by omega⟩
  else if h : 0x400 ≤ off ∧ off < 0x800 then .buf ⟨(off - 0x400) / 4, by omega⟩
  else .reserved off

/-- "RO or reserved" of 20_memory.md R64: writes have no effect and never set OVR. -/
def Reg.ignoresWrites : Reg → Bool
  | .countLo | .countHi | .out _ | .reserved _ => true
  | .cmd | .status | .ctrl | .mode | .chunkLen | .blockLen | .flags | .ctrLo | .ctrHi | .octrLo
  | .octrHi | .key _ | .cv _ | .m _ | .buf _ => false

/-- `x[BUF(w)]`: the four bytes of buffer word `w`, little-endian (10_state.md R36). -/
def State.bufWord (s : State) (w : Nat) : Word := le32 s.buf w

/-- Write buffer word `w`, byte by byte (10_state.md R36). -/
def State.setBufWord (s : State) (w : Nat) (v : Word) : State :=
  (((s.setBuf (4 * w) (byteOf v 0)).setBuf (4 * w + 1) (byteOf v 1)).setBuf (4 * w + 2)
    (byteOf v 2)).setBuf (4 * w + 3) (byteOf v 3)

/-- `x[NAME]`: what a read of a register returns (10_state.md R24 to R39). CMD and the reserved
offsets read as zero. -/
def State.readReg (s : State) : Reg → Word
  | .cmd => 0
  | .status => s.statusWord
  | .ctrl => (BitVec.ofBool s.irqEn).setWidth 32
  | .mode => s.regs.mode.setWidth 32
  | .chunkLen => s.regs.chunkLen.setWidth 32
  | .blockLen => s.regs.blockLen.setWidth 32
  | .flags => s.regs.flags.setWidth 32
  | .ctrLo => s.regs.ctrLo
  | .ctrHi => s.regs.ctrHi
  | .octrLo => s.regs.octrLo
  | .octrHi => s.regs.octrHi
  | .countLo => lowHalf s.tree.chunkCount
  | .countHi => highHalf s.tree.chunkCount
  | .key i => s.regs.key[i]
  | .cv i => s.regs.cv[i]
  | .m i => s.regs.m[i]
  | .out i => s.out[i]
  | .buf w => s.bufWord w.val
  | .reserved _ => 0

/-- Store a word in an input register or a buffer word, "masked to its defined bits"
(20_memory.md R64, 10_state.md R39). The registers that are not plain storage are no business of
this operation. -/
def State.storeReg (s : State) (r : Reg) (v : Word) : State :=
  match r with
  | .mode => { s with regs := { s.regs with mode := v.extractLsb' 0 2 } }
  | .chunkLen => { s with regs := { s.regs with chunkLen := v.extractLsb' 0 11 } }
  | .blockLen => { s with regs := { s.regs with blockLen := v.extractLsb' 0 7 } }
  | .flags => { s with regs := { s.regs with flags := v.extractLsb' 0 8 } }
  | .ctrLo => { s with regs := { s.regs with ctrLo := v } }
  | .ctrHi => { s with regs := { s.regs with ctrHi := v } }
  | .octrLo => { s with regs := { s.regs with octrLo := v } }
  | .octrHi => { s with regs := { s.regs with octrHi := v } }
  | .key i => { s with regs := { s.regs with key := s.regs.key.set i v } }
  | .cv i => { s with regs := { s.regs with cv := s.regs.cv.set i v } }
  | .m i => { s with regs := { s.regs with m := s.regs.m.set i v } }
  | .buf w => s.setBufWord w.val v
  | .cmd | .status | .ctrl | .countLo | .countHi | .out _ | .reserved _ => s

/-- A write of `v` to a register, the choices in the order of 20_memory.md R64. -/
def State.writeReg (s : State) (r : Reg) (v : Word) : State :=
  if r = .status then s.writeStatus v
  else if r = .ctrl then { s with irqEn := v.getLsbD 0 }
  else if r.ignoresWrites then s
  else if s.busy then s.overrun
  else if r = .cmd then s.issue v
  else s.storeReg r v

end Sys2Proof.Machine
end

