-- ==== Sys2Proof/Machine/Bus.lean ====
section
/-! DEFINITION. Bus accesses and reset as events (20_memory.md R62 to R65,
70_reset_and_hazards.md R230). -/

namespace Sys2Proof.Machine

/-- Why an access is refused, if it is (20_memory.md R62, 60_exceptions.md R219; log 7). -/
def accessRefusal (off size : Nat) : Option Refusal :=
  if size ≠ 4 then some (.notWordAccess size)
  else if off % 4 ≠ 0 then some (.misaligned off)
  else if 4096 ≤ off then some (.outsideWindow off)
  else none

/-- `MemRead(off, 4)` (20_memory.md R65): the value goes to `rdata`, and nothing else changes. -/
def busRead (off size : Nat) (s : State) : Host.Outcome State Fault Refusal :=
  match accessRefusal off size with
  | some r => .refused r
  | none => .next { s with rdata := s.readReg (regAt off) }

/-- `MemWrite(off, 4, v)` (20_memory.md R64). -/
def busWrite (off size : Nat) (v : Word) (s : State) : Host.Outcome State Fault Refusal :=
  match accessRefusal off size with
  | some r => .refused r
  | none => .next (s.writeReg (regAt off) v)

/-- Reset (70_reset_and_hazards.md R230): the state of R231, whatever was pending; the free values
are drawn anew (log 3), and what is still to happen comes after it. -/
def State.resetNow (s : State) : State := State.afterReset (s.draws + 1) s.inputs

/-- The window offset of a system address, where it falls in the window (20_memory.md R61). -/
def windowOffset (sysAddr : Nat) : Option Nat :=
  if Config.base ≤ sysAddr ∧ sysAddr < Config.base + 4096 then some (sysAddr - Config.base) else none

end Sys2Proof.Machine
end

