-- ==== Sys2Proof/Machine/Compress.lean ====
section
/-! DEFINITION. The compression unit and COMPRESS (40_compress.md). -/

namespace Sys2Proof.Machine

/-- `rotr32(x, n)` for `0 < n < 32` (00_scope.md R10). -/
def rotr32 (x : Word) (n : Nat) : Word := (x >>> n) ||| (x <<< (32 - n))

/-- The four state words one quarter-round works on. -/
structure Quad where
  a : Word
  b : Word
  c : Word
  d : Word
  deriving DecidableEq, Repr

/-- The eight statements of the quarter-round on its four words, with the message words `x` and `y`
(R106). Each reads what the ones before it wrote. -/
def quarter (q : Quad) (x y : Word) : Quad :=
  let a := q.a + q.b + x
  let d := rotr32 (q.d ^^^ a) 16
  let c := q.c + d
  let b := rotr32 (q.b ^^^ c) 12
  let a := a + b + y
  let d := rotr32 (d ^^^ a) 8
  let c := c + d
  let b := rotr32 (b ^^^ c) 7
  { a := a, b := b, c := c, d := d }

/-- `G(a, b, c, d; x, y)` on the state `v`, for four different indices (R106). -/
def mixG (v : Block) (a b c d : Fin 16) (x y : Word) : Block :=
  let q := quarter { a := v[a], b := v[b], c := v[c], d := v[d] } x y
  (((v.set a q.a).set b q.b).set c q.c).set d q.d

/-- The four column G's of a round (R107). -/
def columns (m : Block) (row : Vector (Fin 16) 16) (v : Block) : Block :=
  let v := mixG v 0 4 8 12 m[row[0]] m[row[1]]
  let v := mixG v 1 5 9 13 m[row[2]] m[row[3]]
  let v := mixG v 2 6 10 14 m[row[4]] m[row[5]]
  mixG v 3 7 11 15 m[row[6]] m[row[7]]

/-- The four diagonal G's of a round (R107). -/
def diagonals (m : Block) (row : Vector (Fin 16) 16) (v : Block) : Block :=
  let v := mixG v 0 5 10 15 m[row[8]] m[row[9]]
  let v := mixG v 1 6 11 12 m[row[10]] m[row[11]]
  let v := mixG v 2 7 8 13 m[row[12]] m[row[13]]
  mixG v 3 4 9 14 m[row[14]] m[row[15]]

/-- Round `r`: the columns, then the diagonals, by schedule row `r` (R107). -/
def roundStep (m : Block) (v : Block) (r : Nat) : Block :=
  diagonals m (schedule r) (columns m (schedule r) v)

/-- The state before round 0 (R105). -/
def initState (cv : Cv) (counter : BitVec 64) (blockLen : BitVec 7) (flags : Byte) : Block :=
  cv ++ (#v[IV[0], IV[1], IV[2], IV[3], lowHalf counter, highHalf counter,
    blockLen.setWidth 32, flags.setWidth 32] : Cv)

/-- Feed-forward (R109): word `i < 8` is `v[i] ^ v[i+8]`, and word `i + 8` is `v[i+8] ^ cv[i]`. -/
def feedForward (cv : Cv) (v : Block) : Block :=
  Vector.ofFn fun (i : Fin 16) =>
    if h : i.val < 8 then v[i.val] ^^^ v[i.val + 8] else v[i.val] ^^^ cv[i.val - 8]

/-- The compression function: initialization, rounds 0 to 6, feed-forward (R108, R110). -/
@[irreducible] def compress (cv : Cv) (m : Block) (counter : BitVec 64) (blockLen : BitVec 7) (flags : Byte) : Block :=
  feedForward cv ((List.range 7).foldl (roundStep m) (initState cv counter blockLen flags))

/-- The compression of a material at a counter (43_output.md R180, R182). -/
def Material.compress (a : Material) (counter : BitVec 64) : Block :=
  Machine.compress a.cv a.m counter a.blen a.flags

/-- The inputs COMPRESS takes from the registers, but the counter (R113). -/
def State.compressMaterial (s : State) : Material :=
  { cv := s.regs.cv, m := s.regs.m, blen := s.regs.blockLen, flags := s.regs.flags }

/-- COMPRESS (40_compress.md R113). -/
def execCompress (s : State) : Host.Outcome State Fault Refusal :=
  if 64 < s.regs.blockLen.toNat then raise .badBlockLen s
  else finish (s.setOut (s.compressMaterial.compress s.ctr))

end Sys2Proof.Machine
end

