-- ==== Sys2Proof/Machine/Chunk.lean ====
section
/-! DEFINITION. The chunk processor and CHUNK (41_chunk.md). -/

namespace Sys2Proof.Machine

/-- The inputs of the chunk processor (41_chunk.md R130). -/
structure ChunkIn where
  buf : Nat → Byte
  len : Nat
  key : Cv
  counter : BitVec 64
  base : Byte
  isRoot : Bool

/-- The number of blocks, `N = max(1, ceil(len / 64))` (R131). -/
def blockCount (len : Nat) : Nat := max 1 ((len + 63) / 64)

/-- The length of block `i` (R131). -/
def blockBytes (len i : Nat) : Nat := min 64 (len - 64 * i)

/-- Byte `k` of block `i`, zero past the block's length (R132). -/
def ChunkIn.byte (c : ChunkIn) (i k : Nat) : Byte :=
  if k < blockBytes c.len i then c.buf (64 * i + k) else 0

/-- The message of block `i` (R133). -/
def ChunkIn.words (c : ChunkIn) (i : Nat) : Block :=
  Vector.ofFn fun (j : Fin 16) => le32 (c.byte i) j.val

/-- The inputs of block `i`'s compression, given its input CV (R134, R136). -/
def ChunkIn.block (c : ChunkIn) (i : Nat) (cv : Cv) : Material where
  cv := cv
  m := c.words i
  blen := BitVec.ofNat 7 (blockBytes c.len i)
  flags := blockFlags c.base c.isRoot i (blockCount c.len)

/-- `cv_i`: the key, then the CV each block's compression leaves (R135, R136). -/
def ChunkIn.cvAt (c : ChunkIn) : Nat → Cv
  | 0 => c.key
  | i + 1 => cvOf ((c.block i (c.cvAt i)).compress c.counter)

/-- The inputs of the last block's compression; for a root, the output material (R137). -/
def ChunkIn.lastBlock (c : ChunkIn) : Material :=
  c.block (blockCount c.len - 1) (c.cvAt (blockCount c.len - 1))

/-- `last`: the 16-word state of the chunk's last compression (R137). -/
def ChunkIn.last (c : ChunkIn) : Block := c.lastBlock.compress c.counter

/-- The chunk in the buffer, in the latched mode (R139, 42_tree.md R157, R160). -/
def State.chunkIn (s : State) (counter : BitVec 64) (isRoot : Bool) : ChunkIn where
  buf := s.buf
  len := s.regs.chunkLen.toNat
  key := s.tree.keyCv
  counter := counter
  base := s.tree.baseFlags
  isRoot := isRoot

/-- CHUNK, or CHUNK.R when `root` (41_chunk.md R139). -/
def execChunk (root : Bool) (s : State) : Host.Outcome State Fault Refusal :=
  if 1024 < s.regs.chunkLen.toNat then raise .badChunkLen s
  else
    let c := s.chunkIn s.ctr root
    let s' := s.setOut c.last
    finish (if root then s'.setMaterial c.lastBlock else s')

end Sys2Proof.Machine
end

