-- ==== Sys2Proof/Machine/Tree.lean ====
section
/-! DEFINITION. The tree engine: INIT, PARENT, COMMIT and FINALIZE (42_tree.md). -/

namespace Sys2Proof.Machine

/-- INIT: start a new hash in the mode MODE selects (42_tree.md R151). -/
def execInit (s : State) : Host.Outcome State Fault Refusal :=
  finish
    { s with
      tree :=
        { s.tree with
          keyCv := modeKeyCv s.regs.mode s.regs.key
          baseFlags := modeFlags s.regs.mode
          lmode := s.regs.mode
          chunkCount := 0
          sp := 0 }
      omv := false }

/-- The inputs of a parent compression in the latched mode, but its counter, which is 0 (R152). -/
def Tree.parentMaterial (t : Tree) (left right : Cv) (isRoot : Bool) : Material where
  cv := t.keyCv
  m := joinCvs left right
  blen := 64
  flags := parentFlags t.baseFlags isRoot

/-- `Parent(left, right, is_root)` (R152). -/
def Tree.parent (t : Tree) (left right : Cv) (isRoot : Bool) : Block :=
  (t.parentMaterial left right isRoot).compress 0

/-- PARENT, or PARENT.R when `root` (R153). -/
def execParent (root : Bool) (s : State) : Host.Outcome State Fault Refusal :=
  let p := s.tree.parentMaterial s.leftChild s.rightChild root
  let s' := s.setOut (p.compress 0)
  finish (if root then s'.setMaterial p else s')

/-- COMMIT's fold (R157): merge `n` times with the top of the stack as left sibling. It carries the
last 16-word result, whose CV is the accumulator, and the stack pointer. -/
def State.mergeTop (s : State) : Nat → Block → BitVec 7 → Block × BitVec 7
  | 0, res, sp => (res, sp)
  | n + 1, res, sp =>
    s.mergeTop n (s.tree.parent (s.stackEntry (sp - 1).toNat) (cvOf res) false) (sp - 1)

/-- `stack[sp] <- acc; sp <- sp + 1; chunk_count <- c + 1` (R157). -/
def Tree.push (t : Tree) (acc : Cv) (sp : BitVec 7) : Tree :=
  { t with
    stack := t.stack.setIfInBounds sp.toNat acc
    sp := sp + 1
    chunkCount := t.chunkCount + 1 }

/-- The result of COMMIT's chunk and merges, and the stack pointer after the merges (R155, R157). -/
def State.commitFold (s : State) : Block × BitVec 7 :=
  s.mergeTop (ctz64 (s.tree.chunkCount + 1)) (s.chunkIn s.tree.chunkCount false).last s.tree.sp

/-- COMMIT (R157). -/
def execCommit (s : State) : Host.Outcome State Fault Refusal :=
  if s.regs.chunkLen ≠ 1024 then raise .badChunkLen s
  else if s.tree.chunkCount = BitVec.allOnes 64 then raise .countOverflow s
  else
    let fold := s.commitFold
    finish ({ s with tree := s.tree.push (cvOf fold.1) fold.2 }.setOut fold.1)

/-- FINALIZE's walk (R159): fold a CV through the stack entries `k`, `k - 1`, …, 1 with plain PARENT
merges. -/
def State.foldDown (s : State) : Nat → Cv → Cv
  | 0, acc => acc
  | k + 1, acc => s.foldDown k (cvOf (s.tree.parent (s.stackEntry (k + 1)) acc false))

/-- The inputs of the root compression, but its counter (R158 to R160): the last block of the lone
chunk, or the merge with `stack[0]`. -/
def State.rootMaterial (s : State) : Material :=
  if s.tree.sp = 0 then (s.chunkIn s.tree.chunkCount true).lastBlock
  else
    s.tree.parentMaterial (s.stackEntry 0)
      (s.foldDown (s.tree.sp.toNat - 1) (cvOf (s.chunkIn s.tree.chunkCount false).last)) true

/-- The counter of the root compression: the chunk index for a lone chunk (`ChunkProc` is called
with `chunk_count`, R160), 0 for a parent (R152). -/
def State.rootCounter (s : State) : BitVec 64 :=
  if s.tree.sp = 0 then s.tree.chunkCount else 0

/-- FINALIZE (R160). It writes neither the stack, `sp` nor `chunk_count` (R161). -/
def execFinalize (s : State) : Host.Outcome State Fault Refusal :=
  if 1024 < s.regs.chunkLen.toNat then raise .badChunkLen s
  else if s.tree.chunkCount ≠ 0 ∧ s.regs.chunkLen = 0 then raise .badChunkLen s
  else finish ((s.setOut (s.rootMaterial.compress s.rootCounter)).setMaterial s.rootMaterial)

end Sys2Proof.Machine
end

