-- ==== Sys2Proof/Machine/Output.lean ====
section
/-! DEFINITION. OUTPUT: one 64-byte block of the root's output (43_output.md). -/

namespace Sys2Proof.Machine

/-- OUTPUT (43_output.md R182). -/
def execOutput (s : State) : Host.Outcome State Fault Refusal :=
  if s.omv = false then raise .noOutput s
  else finish (s.setOut (s.om.compress s.octr))

/-- Byte `k` of the 64 bytes of an output block: `le_bytes` of its words (43_output.md R183). -/
def outputByte (b : Block) (k : Fin 64) : Byte := byteOf b[k.val / 4] (k.val % 4)

/-- The number of distinct output blocks: "the counter is 64 bits, so at most 2^64" (43_output.md
R186). -/
def outputBlocks : Nat := 2 ^ 64

/-- Byte `n` of the root's output stream: byte `n mod 64` of the output block at counter `n div 64`
(43_output.md R183). DESIGN CHOICE: past the last block (R186) the byte is a free value; the block
index does not wrap (log 17, safe). -/
def Material.streamByte (om : Material) (n : Nat) : Byte :=
  if n / 64 < outputBlocks then
    outputByte (om.compress (BitVec.ofNat 64 (n / 64))) ⟨n % 64, Nat.mod_lt n (by decide)⟩
  else Config.pastStream n

end Sys2Proof.Machine
end

