-- ==== Sys2Proof/Machine/Dispatch.lean ====
section
/-! DEFINITION. What each command does at its completion (30_encoding.md R84, R85): one arm a command. -/

namespace Sys2Proof.Machine

def exec (i : Instr) (s : State) : Host.Outcome State Fault Refusal :=
  match i with
  | .compress => Sys2Proof.Machine.execCompress s
  | .init => Sys2Proof.Machine.execInit s
  | .chunk root => Sys2Proof.Machine.execChunk root s
  | .parent root => Sys2Proof.Machine.execParent root s
  | .commit => Sys2Proof.Machine.execCommit s
  | .finalize => Sys2Proof.Machine.execFinalize s
  | .output => Sys2Proof.Machine.execOutput s

end Sys2Proof.Machine
end

