-- ==== Sys2Proof/Machine/Engine.lean ====
section
/-! DEFINITION. The engine's step, and one event (30_encoding.md R84, 20_memory.md R67). -/

namespace Sys2Proof.Machine

/-- The completion of a command word: `Execute(c)`, which tests legality first (30_encoding.md R82),
and the STATUS changes of R84. -/
def executeWord (c : Word) (s : State) : Host.Outcome State Fault Refusal :=
  match decode c with
  | .ok i => exec i s
  | .error _ => raise .illegalCmd s

/-- The engine's turn: it completes the pending command, and does nothing where none is pending
(R84 "enabled iff STATUS.BUSY = 1"). -/
def engineTurn (s : State) : Host.Outcome State Fault Refusal :=
  match s.pending with
  | none => .next s
  | some c => executeWord c s

/-- One event (60_exceptions.md R208: "separate events in one total order"). -/
def happen (e : Event) (s : State) : Host.Outcome State Fault Refusal :=
  match e with
  | .read off size => busRead off size s
  | .write off size v => busWrite off size v s
  | .engine => engineTurn s
  | .reset => .next s.resetNow

/-- Let events happen one after the other. -/
def happenAll : List Event → State → Host.Outcome State Fault Refusal
  | [], s => .next s
  | e :: rest, s =>
    match happen e s with
    | .next s' => happenAll rest s'
    | .fault r => .fault r
    | .refused r => .refused r

/-- Place a command word where the next step takes its command from: pending, and the engine's turn
first of all (log 13). -/
def State.placeWord (s : State) (c : Word) : State :=
  { s with pending := some c, inputs := .engine :: s.inputs }

end Sys2Proof.Machine
end

