-- ==== Sys2Proof/Machine/Step.lean ====
section
/-! DEFINITION. One step of B3CORE: the next event, or the engine when no event is left. -/

namespace Sys2Proof.Machine

/-- The first of the events still to happen. When none is left the engine has its turn: a pending
command always completes (30_encoding.md R84, 70_reset_and_hazards.md R244; log 2). -/
def step (s : State) : Host.Outcome State Fault Refusal :=
  match s.inputs with
  | [] => engineTurn s
  | e :: rest => happen e { s with inputs := rest }

/-- The command word `w` of `nbits` bits, pending, with the engine's turn next (log 13). -/
def State.withFetchWord (s : State) (nbits w : Nat) : State :=
  s.placeWord (BitVec.ofNat 32 (w % 2 ^ nbits))

end Sys2Proof.Machine
end

