-- ==== Sys2Proof/Machine/Script.lean ====
section
/-! DEFINITION. Host scripts (30_encoding.md R90, R91), the events they make, what the host reads by
them, and the host procedures (42_tree.md R163, 43_output.md R188 to R190) (log 14). -/

namespace Sys2Proof.Machine.Script

/-! ## Statements and their runs -/

/-- A statement of a host script (R90), and `WAIT` (R91). -/
inductive Stmt where
  /-- `WR REG, v` -/
  | wr (r : Reg) (v : Word)
  /-- `RD REG` -/
  | rd (r : Reg)
  /-- `CMD NAME` or `CMD NAME.R` -/
  | cmd (i : Instr)
  /-- `WAIT` -/
  | wait
  deriving DecidableEq, Repr

/-- How many of the host's accesses come between the issue of a command and its completion, by the
command's place among those a run issues. LATENCY is open (00_scope.md R8, 92_eei_decisions.md D40) and
"may differ per command and per input" (70_reset_and_hazards.md R243), so this is an argument of every
run; a completion may come before a `WAIT`, or in it, after any number of its reads (log 14). -/
abbrev Latency := Nat → Nat

/-- A host at work: the block as it stands, how many more accesses come before the pending command
completes, and the latencies of the commands it has yet to issue. -/
structure Driver where
  state : State
  left : Nat
  latency : Latency

/-- A host that begins its run in a state of the block. A command that is pending there already is the
first one of the latencies. -/
def start (latency : Latency) (s : State) : Driver :=
  if s.busy then { state := s, left := latency 0, latency := fun k => latency (k + 1) }
  else { state := s, left := 0, latency := latency }

/-- What happens at an access: the completion first, where a command is pending and its time has come. -/
def Driver.events (d : Driver) (e : Event) : List Event :=
  if d.state.busy && d.left == 0 then [.engine, e] else [e]

/-- The host after an access that led to `t`: where `t` is BUSY and the block was idle right before the
access, the access has issued a command. -/
def Driver.next (d : Driver) (t : State) : Driver :=
  if t.busy && (!d.state.busy || d.left == 0) then
    { state := t, left := d.latency 0, latency := fun k => d.latency (k + 1) }
  else { d with state := t, left := d.left - 1 }

/-- Perform an access; the events are what happened. One that does not exist (20_memory.md R62) leads to
no state, and the host stays where it was. -/
def Driver.access (d : Driver) (e : Event) : Driver × List Event :=
  match happenAll (d.events e) d.state with
  | .next t => (d.next t, d.events e)
  | .fault _ => (d, d.events e)
  | .refused _ => (d, d.events e)

/-- One access of `WAIT`. -/
def Driver.poll (d : Driver) : Driver × List Event := d.access (.read Reg.status.offset 4)

/-- "`loop: RD STATUS` until bit 0 (`BUSY`) of the value read is 0" (R91), for at most `fuel + 1` reads. -/
def Driver.waitFuel : Nat → Driver → Driver × List Event
  | 0, d => d.poll
  | fuel + 1, d =>
    if d.poll.1.state.rdata.getLsbD 0 then
      let rest := Driver.waitFuel fuel d.poll.1
      (rest.1, d.poll.2 ++ rest.2)
    else d.poll

/-- `WAIT` (R91). The completion comes after `left` more accesses, so the read after those sees BUSY = 0
at the latest: "A `WAIT` loop ends after a finite number of reads". -/
def Driver.wait (d : Driver) : Driver × List Event := Driver.waitFuel d.left d

/-- A statement (R90, R91). -/
def Driver.stmt (d : Driver) : Stmt → Driver × List Event
  | .wr r v => d.access (.write r.offset 4 v)
  | .rd r => d.access (.read r.offset 4)
  | .cmd i => d.access (.write 0x000 4 (encode i))
  | .wait => d.wait

/-- A script. -/
def Driver.run : Driver → List Stmt → Driver × List Event
  | d, [] => (d, [])
  | d, x :: rest =>
    let first := d.stmt x
    let others := first.1.run rest
    (others.1, first.2 ++ others.2)

/-- The events of a script run from a state. -/
def events (latency : Latency) (script : List Stmt) (s : State) : List Event :=
  ((start latency s).run script).2

/-! ## What the host reads -/

/-- Whether an access reads an OUT register (10_state.md R23). -/
def readsOut : Event → Bool
  | .read off _ => 0x0C0 ≤ off && off < 0x100
  | .write _ _ _ | .engine | .reset => false

/-- The words that the reads of OUT registers return, in order. -/
def outReads : List Event → State → List Word
  | [], _ => []
  | e :: rest, s =>
    match happen e s with
    | .next t => if readsOut e then t.rdata :: outReads rest t else outReads rest t
    | .fault _ => []
    | .refused _ => []

/-- `le_bytes` of a word (00_scope.md R13). -/
def leBytes (w : Word) : List Byte := [byteOf w 0, byteOf w 1, byteOf w 2, byteOf w 3]

/-- The first `n` output bytes a host run reads: "`le_bytes` of the words read, truncated" (R91;
43_output.md R183 "Concatenate and truncate to N"). -/
def outputBytes (n : Nat) (happened : List Event) (s : State) : List Byte :=
  ((outReads happened s).flatMap leBytes).take n

/-! ## Pseudo-instructions (30_encoding.md R91) -/

/-- `ACK`: clears DONE, ERR with ERRCODE, and OVR. -/
def ack : List Stmt := [.wr .status 0x0000000E]

/-- Byte `k` of a byte string, zero past its end: the padding of `WRBUF`. -/
def padded (bytes : List Byte) (k : Nat) : Byte := bytes.getD k 0

/-- `WRBUF B`, of at most 1024 bytes. -/
def wrbuf (bytes : List Byte) : List Stmt :=
  (List.range ((bytes.length + 3) / 4)).map fun w => .wr (.buf (Fin.ofNat 256 w)) (le32 (padded bytes) w)

/-- `WR KEY(0), …, KEY(7)` with the words of a chaining value (43_output.md R190). -/
def wrkeyWords (k : Cv) : List Stmt := (List.finRange 8).map fun i => .wr (.key i) k[i]

/-- `WRKEY K`: the 32 key bytes as little-endian words. -/
def wrkey (bytes : List Byte) : List Stmt :=
  wrkeyWords (Vector.ofFn fun i => le32 (padded bytes) i.val)

/-- `WRCTR c`. -/
def wrctr (c : BitVec 64) : List Stmt := [.wr .ctrLo (lowHalf c), .wr .ctrHi (highHalf c)]

/-- `WROCTR j`. -/
def wroctr (j : BitVec 64) : List Stmt := [.wr .octrLo (lowHalf j), .wr .octrHi (highHalf j)]

/-- `RDOUT n`, for at most 64 bytes. -/
def rdout (n : Nat) : List Stmt :=
  (List.range ((n + 3) / 4)).map fun i => .rd (.out (Fin.ofNat 16 i))

/-- `RUN NAME[.R]`. -/
def run (i : Instr) : List Stmt := [.cmd i, .wait]

/-! ## The host procedures -/

/-- The last round of 42_tree.md R163: the tail goes to FINALIZE. -/
def finishTail (tail : List Byte) : List Stmt :=
  wrbuf tail ++ [.wr .chunkLen (BitVec.ofNat 32 tail.length)] ++ run .finalize

/-- The procedure of 42_tree.md R163, for at most `fuel` chunks before the tail. -/
def hashFuel : Nat → List Byte → List Stmt
  | 0, bytes => finishTail bytes
  | fuel + 1, bytes =>
    if 1024 < bytes.length then
      wrbuf (bytes.take 1024) ++ [.wr .chunkLen 1024] ++ run .commit ++ hashFuel fuel (bytes.drop 1024)
    else finishTail bytes

/-- Hash a byte string in the latched mode (42_tree.md R163). -/
def hash (bytes : List Byte) : List Stmt := hashFuel bytes.length bytes

/-- INIT in a mode (43_output.md R188 to R190). -/
def initMode (md : Word) : List Stmt := .wr .mode md :: run .init

/-- The number of output blocks of `n` bytes, `ceil(n / 64)` (43_output.md R183). DESIGN CHOICE: the
host asks for no block past the `2^64` there are, since reusing a counter "is outside this spec"
(R186); the block index does not wrap (log 17). -/
def blocksOf (n : Nat) : Nat := min ((n + 63) / 64) outputBlocks

/-- `RDOUT min(N, 64)`, then OUTPUT blocks 1 to `ceil(N/64) - 1`, of each its share of `N`
(43_output.md R188). -/
def readOutput (n : Nat) : List Stmt :=
  rdout (min n 64) ++ (List.range (blocksOf n - 1)).flatMap fun k =>
    wroctr (BitVec.ofNat 64 (k + 1)) ++ run .output ++ rdout (min 64 (n - 64 * (k + 1)))

/-- Hash to `n` bytes in the latched mode. After reset this is a plain hash, whose INIT "may be skipped"
(43_output.md R188). -/
def digest (bytes : List Byte) (n : Nat) : List Stmt := hash bytes ++ readOutput n

/-- Plain hash to `n` bytes (43_output.md R188). -/
def plainHash (bytes : List Byte) (n : Nat) : List Stmt := initMode 0 ++ digest bytes n

/-- Keyed hash to `n` bytes (43_output.md R189). -/
def keyedHash (keyBytes bytes : List Byte) (n : Nat) : List Stmt :=
  wrkey keyBytes ++ initMode 1 ++ digest bytes n

/-- Key derivation, context phase (43_output.md R190): it ends with `RD OUT(0) … RD OUT(7)`. -/
def deriveContext (context : List Byte) : List Stmt := initMode 2 ++ hash context ++ rdout 32

/-- Key derivation, material phase (43_output.md R190), with the context CV the host read. -/
def deriveMaterial (contextCv : Cv) (bytes : List Byte) (n : Nat) : List Stmt :=
  wrkeyWords contextCv ++ initMode 3 ++ digest bytes n

/-- The context CV: the eight words the host reads of OUT in the context phase, run from `s`
(43_output.md R190). All eight reads are there, so the 0 of `getD` is never taken. -/
def contextCv (context : List Byte) (latency : Latency) (s : State) : Cv :=
  Vector.ofFn fun i => (outReads (events latency (deriveContext context) s) s).getD i.val 0

/-- Key derivation to `n` bytes, run from `s` (43_output.md R190): the context phase, then the material
phase under the context CV that the host read back. -/
def deriveKey (context bytes : List Byte) (n : Nat) (latency : Latency) (s : State) : List Event :=
  events latency (deriveContext context ++ deriveMaterial (contextCv context latency s) bytes n) s

/-- The bytes of a key derivation: what the host reads of OUT after the eight words of the context CV. -/
def derivedBytes (context bytes : List Byte) (n : Nat) (latency : Latency) (s : State) : List Byte :=
  (((outReads (deriveKey context bytes n latency s) s).drop 8).flatMap leBytes).take n

end Sys2Proof.Machine.Script
end

