-- ==== Sys2Proof/Machine/Port.lean ====
section
/-! DEFINITION. One clock cycle of the port as model events (10_state.md R22, 60_exceptions.md R208,
70_reset_and_hazards.md R230). -/

namespace Sys2Proof.Machine

/-- What the inputs of B3CORE hold at one rising edge of `clk` (10_state.md R22), and whether the
engine finishes in this cycle, which LATENCY leaves open (00_scope.md R8). -/
structure PortCycle where
  rstN : Bool
  sel : Bool
  we : Bool
  addr : BitVec 10
  wdata : Word
  finishes : Bool
  deriving DecidableEq, Repr

/-- The access of a cycle: at byte offset `{addr, 2'b00}`, 32 bits wide (R22). -/
def PortCycle.access (p : PortCycle) : List Event :=
  if p.sel then
    if p.we then [.write (4 * p.addr.toNat) 4 p.wdata] else [.read (4 * p.addr.toNat) 4]
  else []

/-- The events of a cycle, in order: the bus access acts before a completion in the same cycle, and
reset beats both (60_exceptions.md R208, 70_reset_and_hazards.md R230). -/
def PortCycle.events (p : PortCycle) : List Event :=
  if p.rstN then p.access ++ (if p.finishes then [.engine] else []) else [.reset]

end Sys2Proof.Machine
end

