-- ==== Sys2Proof/Machine/Work.lean ====
section
/-! DEFINITION. The compressions a command performs, in order (70_reset_and_hazards.md R243,
42_tree.md R162). The spec fixes how many there are and which carries ROOT; it does not fix how long
they take. -/

namespace Sys2Proof.Machine

/-- One compression: its inputs and its counter. -/
abbrev Job := Material × BitVec 64

/-- What a compression gives. -/
def Job.result (j : Job) : Block := j.1.compress j.2

/-- Whether a compression carries the ROOT flag (40_compress.md R101). -/
def Job.isRoot (j : Job) : Bool := j.1.flags.getLsbD 3

/-- The blocks of a chunk (41_chunk.md R136). -/
def ChunkIn.jobs (c : ChunkIn) : List Job :=
  (List.range (blockCount c.len)).map fun i => (c.block i (c.cvAt i), c.counter)

/-- The merges of COMMIT (42_tree.md R157). -/
def State.mergeJobs (s : State) : Nat → Block → BitVec 7 → List Job
  | 0, _, _ => []
  | n + 1, res, sp =>
    let p := s.tree.parentMaterial (s.stackEntry (sp - 1).toNat) (cvOf res) false
    (p, 0) :: s.mergeJobs n (p.compress 0) (sp - 1)

/-- The plain merges of FINALIZE (42_tree.md R159). -/
def State.foldJobs (s : State) : Nat → Cv → List Job
  | 0, _ => []
  | k + 1, acc =>
    let p := s.tree.parentMaterial (s.stackEntry (k + 1)) acc false
    (p, 0) :: s.foldJobs k (cvOf (p.compress 0))

/-- The compressions of a command, none where it ends in an error (70_reset_and_hazards.md R243). -/
def jobs (i : Instr) (s : State) : List Job :=
  match i with
  | .compress => if 64 < s.regs.blockLen.toNat then [] else [(s.compressMaterial, s.ctr)]
  | .init => []
  | .chunk root => if 1024 < s.regs.chunkLen.toNat then [] else (s.chunkIn s.ctr root).jobs
  | .parent root => [(s.tree.parentMaterial s.leftChild s.rightChild root, 0)]
  | .commit =>
    if s.regs.chunkLen ≠ 1024 ∨ s.tree.chunkCount = BitVec.allOnes 64 then []
    else
      (s.chunkIn s.tree.chunkCount false).jobs
        ++ s.mergeJobs (ctz64 (s.tree.chunkCount + 1)) (s.chunkIn s.tree.chunkCount false).last s.tree.sp
  | .finalize =>
    if 1024 < s.regs.chunkLen.toNat ∨ (s.tree.chunkCount ≠ 0 ∧ s.regs.chunkLen = 0) then []
    else if s.tree.sp = 0 then (s.chunkIn s.tree.chunkCount true).jobs
    else
      (s.chunkIn s.tree.chunkCount false).jobs
        ++ s.foldJobs (s.tree.sp.toNat - 1) (cvOf (s.chunkIn s.tree.chunkCount false).last)
        ++ [(s.rootMaterial, 0)]
  | .output => if s.omv then [(s.om, s.octr)] else []

end Sys2Proof.Machine
end

