-- ==== Sys2Proof/Safety.lean ====
section
/-! DEFINITION. What a claim about B3CORE may speak of: the invariant of its states, runs in which
every access exists, and the spec's second formulations of its procedures, against which the
machine's own are held. Nothing here is used by the machine. -/

namespace Sys2Proof.Machine

/-- What holds of every state after reset and after every step. -/
structure State.Inv (s : State) : Prop where
  /-- `sp = popcount64(chunk_count)` (10_state.md R42, 42_tree.md R165). -/
  sp_popcount : s.tree.sp.toNat = popcount64 s.tree.chunkCount
  /-- The base flags are those of the latched mode (10_state.md R40, 42_tree.md R150). -/
  flags_of_mode : s.tree.baseFlags = modeFlags s.tree.lmode
  /-- The key CV of the plain and the context mode is the IV (42_tree.md R150). -/
  key_of_mode : s.tree.lmode = 0 ∨ s.tree.lmode = 2 → s.tree.keyCv = IV
  /-- `om_blen` is 0 to 64 (10_state.md R43); that it is also right after reset, when R231 calls it
  unspecified, is log 4. -/
  om_blen_le : s.om.blen.toNat ≤ 64
  /-- Valid output material has ROOT in its flag byte (43_output.md R180). -/
  om_root : s.omv = true → s.om.flags.getLsbD 3 = true
  /-- The memory is in its canonical form. -/
  mem_wf : Memory.wf s.draws s.mem = true
  /-- While a command is pending DONE, ERR and ERRCODE are 0 (30_encoding.md R83). -/
  busy_clear : s.busy = true →
    s.status.done = false ∧ s.status.err = false ∧ s.status.errCode = .none
  /-- ERR is 1 exactly when ERRCODE is not 0 (10_state.md R25, R26). -/
  err_iff_code : s.status.err = true ↔ s.status.errCode ≠ .none
  /-- Valid output material carries the latched mode's base flags (43_output.md R191). -/
  om_mode : s.omv = true → s.om.flags &&& s.tree.baseFlags = s.tree.baseFlags

/-- An event whose bus access, if it is one, exists (20_memory.md R62). -/
def Event.wf : Event → Bool
  | .read off size => wfAccess off size
  | .write off size _ => wfAccess off size
  | .engine => true
  | .reset => true

/-- A host access. -/
def Event.isAccess : Event → Bool
  | .read _ _ | .write _ _ _ => true
  | .engine | .reset => false

/-! ## The compression with a permuted message (40_compress.md R115) -/

/-- `m'[i] <- m'[π[i]]` for all `i` simultaneously. -/
def permuteMessage (m : Block) : Block := Vector.ofFn fun i => m[perm[i]]

/-- `n` rounds that use the message words in order and permute them in between. -/
def permutingRounds : Nat → Block → Block → Block
  | 0, _, v => v
  | n + 1, m, v =>
    permutingRounds n (permuteMessage m) (diagonals m (Vector.ofFn id) (columns m (Vector.ofFn id) v))

/-- The compression function in the form of R115. -/
def permutingCompress (cv : Cv) (m : Block) (counter : BitVec 64) (blockLen : BitVec 7)
    (flags : Byte) : Block :=
  feedForward cv (permutingRounds 7 m (initState cv counter blockLen flags))

/-! ## The chunk processor as a loop (41_chunk.md R138) -/

/-- `blen`, `p`, `m` and `flags` of block `i` as R138 writes them, with the running CV. -/
def ChunkIn.loopBlock (c : ChunkIn) (i : Nat) (cv : Cv) : Material :=
  let blen := if c.len = 0 then 0 else min 64 (c.len - 64 * i)
  let p := fun k => if k < blen then c.buf (64 * i + k) else 0
  { cv := cv
    m := Vector.ofFn fun (j : Fin 16) => le32 p j.val
    blen := BitVec.ofNat 7 blen
    flags := c.base ||| (if i = 0 then 0x01 else 0)
      ||| (if i = blockCount c.len - 1 then 0x02 else 0)
      ||| (if c.isRoot ∧ i = blockCount c.len - 1 then 0x08 else 0) }

/-- Run `n` blocks from block `i` on, from the running CV; the result is the last state and the inputs
of the last block, or what was there before where no block is run. -/
def ChunkIn.loop (c : ChunkIn) : Nat → Nat → Cv → Option (Block × Material) → Option (Block × Material)
  | 0, _, _, before => before
  | n + 1, i, cv, _ =>
    let a := c.loopBlock i cv
    let s := a.compress c.counter
    c.loop n (i + 1) (cvOf s) (some (s, a))

/-! ## The tree driver's other formulations (42_tree.md R155, R159) -/

/-- The valid stack entries, the top first (10_state.md R42). -/
def State.liveStack (s : State) : List Cv := (List.range s.tree.sp.toNat).reverse.map s.stackEntry

/-- "pop two CVs (top = right, next = left), push parent(left, right)", `n` times (R155). -/
def Tree.popMerge (t : Tree) : Nat → List Cv → List Cv
  | 0, l => l
  | n + 1, right :: left :: rest => t.popMerge n (cvOf (t.parent left right false) :: rest)
  | _ + 1, l => l

/-- "repeatedly pop top two and merge with plain PARENT until two remain; the final merge uses
PARENT|ROOT" (R159): the inputs of that final merge. -/
def Tree.popRoot (t : Tree) : Nat → List Cv → Option Material
  | 0, _ => none
  | _ + 1, [right, left] => some (t.parentMaterial left right true)
  | n + 1, right :: left :: rest => t.popRoot n (cvOf (t.parent left right false) :: rest)
  | _ + 1, _ => none

/-! ## The tree of an input (42_tree.md R154, R164) -/

/-- The CV of the complete subtree of `2^e` chunks that begins at chunk `lo`, over the chunks' CVs. -/
def Tree.subtreeCv (t : Tree) (leaf : Nat → Cv) : Nat → Nat → Cv
  | 0, lo => leaf lo
  | e + 1, lo =>
    cvOf (t.parent (t.subtreeCv leaf e lo) (t.subtreeCv leaf e (lo + 2 ^ e)) false)

/-- The CV of the left-leaning tree of the `n` chunks from chunk `lo` on (R164): its left child is
the complete subtree of the largest power of two strictly less than `n`, its right child the tree of
the rest. `fuel` bounds the depth. -/
def Tree.treeCv (t : Tree) (leaf : Nat → Cv) : Nat → Nat → Nat → Cv
  | 0, lo, _ => leaf lo
  | fuel + 1, lo, n =>
    if n ≤ 1 then leaf lo
    else
      let e := Nat.log2 (n - 1)
      cvOf (t.parent (t.subtreeCv leaf e lo) (t.treeCv leaf fuel (lo + 2 ^ e) (n - 2 ^ e)) false)

/-- The CV of chunk `i` of an input whose chunks are all full, as COMMIT computes a leaf. -/
def Tree.leafCv (t : Tree) (chunks : Nat → Nat → Byte) (i : Nat) : Cv :=
  cvOf (ChunkIn.last
    { buf := chunks i, len := 1024, key := t.keyCv, counter := BitVec.ofNat 64 i
      base := t.baseFlags, isRoot := false })

/-- R154: the entry of each set bit `e` of `chunk_count`, counted from the base by the set bits above
it, is the CV of the complete subtree of `2^e` chunks at its place in the chunks committed so far. -/
def State.HoldsSubtrees (s : State) (leaf : Nat → Cv) : Prop :=
  ∀ e < 64, s.tree.chunkCount.getLsbD e = true →
    s.stackEntry (setBits 64 (s.tree.chunkCount.toNat / 2 ^ (e + 1))) =
      s.tree.subtreeCv leaf e (s.tree.chunkCount.toNat / 2 ^ (e + 1) * 2 ^ (e + 1))

end Sys2Proof.Machine
end

