-- ==== Sys2Proof/Certificates/Slice0/Obligations.lean ====
section
/-! DEFINITION. The statements for the provers, from the numbered rules of spec/. Each docstring names
the rule; where a clause rests on a choice of the model it names the log entry. -/

open Sys2Proof Sys2Proof.Machine

/-! ## Command words (30_encoding.md) -/

/-- R81: for every command, well formed as every command is, decoding its encoding gives it back, with
either value of its root option; and a word that decodes is the encoding of what it decodes to, so no
bit of a word is dropped. -/
def Obligations.DecodeInvertsEncode : Prop :=
  (∀ i : Instr, i.wf = true → decode (encode i) = .ok i) ∧
  (∀ (w : Word) (i : Instr), decode w = .ok i → encode i = w)

/-- R82: a word is legal iff its opcode is 1 to 7, its reserved bits are 0, and bit 8 is 0 unless the
opcode is 3 or 4; the legal words are exactly the nine of the table, which are the words that decode;
every word is accepted at issue alike, and the completion of an illegal one ends with ILLEGAL_CMD and
changes nothing else. -/
def Obligations.IllegalWordsOnlyReportIllegalCmd : Prop :=
  (∀ w : Word, legalWord w = true ↔
    (1 ≤ w.toNat % 16 ∧ w.toNat % 16 ≤ 7) ∧ (w.extractLsb' 4 4 = 0 ∧ w.extractLsb' 9 23 = 0) ∧
    (w.getLsbD 8 = true → w.toNat % 16 = 3 ∨ w.toNat % 16 = 4)) ∧
  (∀ w : Word, legalWord w = true ↔
    w ∈ [0x00000001, 0x00000002, 0x00000003, 0x00000103, 0x00000004, 0x00000104, 0x00000005,
      0x00000006, (0x00000007 : Word)]) ∧
  (∀ w : Word, legalWord w = true ↔ ∃ i, decode w = .ok i) ∧
  (∀ (s : State) (w : Word), s.busy = false → happen (.write 0x000 4 w) s = .next { s with
    pending := some w
    status := { s.status with done := false, err := false, errCode := .none } }) ∧
  (∀ (s : State) (w : Word), legalWord w = false → s.pending = some w →
    happen .engine s = .next { s with
      pending := none
      status := { s.status with done := true, err := true, errCode := .illegalCmd } })

/-- The nine legal words of R81, written out, decode to the commands they stand for. -/
def Obligations.TableWordsDecode : Prop :=
  decode 0x00000001 = .ok .compress ∧ decode 0x00000002 = .ok .init ∧
  decode 0x00000003 = .ok (.chunk false) ∧ decode 0x00000103 = .ok (.chunk true) ∧
  decode 0x00000004 = .ok (.parent false) ∧ decode 0x00000104 = .ok (.parent true) ∧
  decode 0x00000005 = .ok .commit ∧ decode 0x00000006 = .ok .finalize ∧
  decode 0x00000007 = .ok .output

/-- R84: when it is the engine's turn, a pending word that decodes to a command is completed as `exec`
of it, at the state from which only the event is taken; with nothing pending the turn does nothing.
Where no event is left the turn is the engine's. (That the turn is the engine's then is the model's
choice, log 2.) -/
def Obligations.StepRunsThePendingCommand : Prop :=
  (∀ (s : State) (c : Word) (i : Instr) (rest : List Event), s.inputs = .engine :: rest →
    s.pending = some c → decode c = .ok i → step s = exec i { s with inputs := rest }) ∧
  (∀ (s : State) (c : Word) (i : Instr), s.inputs = [] → s.pending = some c → decode c = .ok i →
    step s = exec i s) ∧
  (∀ (s : State) (rest : List Event), s.inputs = .engine :: rest → s.pending = none →
    step s = .next { s with inputs := rest }) ∧
  (∀ s : State, s.inputs = [] → s.pending = none → step s = .next s)

/-! ## The compression (40_compress.md) -/

/-- R106: after `G` on four different indices, the eight statements hold of the words it leaves, each
reading what the ones before it wrote, and every other word is as it was. -/
def Obligations.QuarterRoundRunsItsStatementsInOrder : Prop :=
  ∀ (v : Block) (a b c d : Fin 16) (x y : Word), [a, b, c, d].Nodup →
    ∃ a1 d1 c1 b1 : Word,
      a1 = v[a] + v[b] + x ∧ d1 = (v[d] ^^^ a1).rotateRight 16 ∧
      c1 = v[c] + d1 ∧ b1 = (v[b] ^^^ c1).rotateRight 12 ∧
      (mixG v a b c d x y)[a] = a1 + b1 + y ∧
      (mixG v a b c d x y)[d] = (d1 ^^^ (mixG v a b c d x y)[a]).rotateRight 8 ∧
      (mixG v a b c d x y)[c] = c1 + (mixG v a b c d x y)[d] ∧
      (mixG v a b c d x y)[b] = (b1 ^^^ (mixG v a b c d x y)[c]).rotateRight 7 ∧
      ∀ j : Fin 16, j ∉ [a, b, c, d] → (mixG v a b c d x y)[j] = v[j]

/-- R102, R103: the values of π and of the seven rows of the schedule, as the tables give them; row 0 is
the identity, each next row is the row before it read through π, and every row is a permutation of
0 to 15. -/
def Obligations.ScheduleRowsArePermutations : Prop :=
  perm = #v[2, 6, 3, 10, 7, 0, 4, 13, 1, 11, 12, 5, 9, 14, 15, 8] ∧
  (List.range 7).map schedule =
    [#v[0, 1, 2, 3, 4, 5, 6, 7, 8, 9, 10, 11, 12, 13, 14, 15],
     #v[2, 6, 3, 10, 7, 0, 4, 13, 1, 11, 12, 5, 9, 14, 15, 8],
     #v[3, 4, 10, 12, 13, 2, 7, 14, 6, 5, 9, 0, 11, 15, 8, 1],
     #v[10, 7, 12, 9, 14, 3, 13, 15, 4, 0, 11, 2, 5, 8, 1, 6],
     #v[12, 13, 9, 11, 15, 10, 14, 8, 7, 2, 5, 3, 0, 1, 6, 4],
     #v[9, 14, 11, 5, 8, 12, 15, 1, 13, 3, 0, 10, 2, 6, 4, 7],
     #v[11, 15, 5, 0, 1, 9, 8, 6, 14, 10, 2, 12, 3, 4, 7, 13]] ∧
  (∀ i : Fin 16, (schedule 0)[i] = i) ∧
  (∀ (r : Nat) (i : Fin 16), (schedule (r + 1))[i] = (schedule r)[perm[i]]) ∧
  ∀ r : Nat, Function.Bijective fun i : Fin 16 => (schedule r)[i]

/-- R107: two G's on disjoint words may be computed in either order, so the four column G's may be,
and the four diagonal G's. -/
def Obligations.DisjointQuarterRoundsCommute : Prop :=
  ∀ (v : Block) (a b c d a' b' c' d' : Fin 16) (x y x' y' : Word),
    [a, b, c, d, a', b', c', d'].Nodup →
    mixG (mixG v a b c d x y) a' b' c' d' x' y' = mixG (mixG v a' b' c' d' x' y') a b c d x y

/-- R109: the feed-forward, word by word. -/
def Obligations.FeedForwardMixesTheHalves : Prop :=
  ∀ (cv : Cv) (v : Block) (i : Fin 8),
    (feedForward cv v)[i.val] = v[i.val] ^^^ v[i.val + 8] ∧
    (feedForward cv v)[i.val + 8] = v[i.val + 8] ^^^ cv[i]

/-- R105, R107, R108, R115: the compression, with its initial state and the index lists of the eight G's
written out. It is seven rounds of them on the message words the schedule selects, and equally seven
rounds on the message words in order, the message being permuted by π in between; and it equals the
model's own form of the latter. -/
def Obligations.CompressionPermutesTheMessageInstead : Prop :=
  ∀ (cv : Cv) (m : Block) (counter : BitVec 64) (blockLen : BitVec 7) (flags : Byte),
    let start : Block := #v[cv[0], cv[1], cv[2], cv[3], cv[4], cv[5], cv[6], cv[7],
      0x6A09E667, 0xBB67AE85, 0x3C6EF372, 0xA54FF53A,
      counter.extractLsb' 0 32, counter.extractLsb' 32 32, blockLen.setWidth 32, flags.setWidth 32]
    let round : Block → Block → Block := fun x v =>
      let v := mixG v 0 4 8 12 x[0] x[1]
      let v := mixG v 1 5 9 13 x[2] x[3]
      let v := mixG v 2 6 10 14 x[4] x[5]
      let v := mixG v 3 7 11 15 x[6] x[7]
      let v := mixG v 0 5 10 15 x[8] x[9]
      let v := mixG v 1 6 11 12 x[10] x[11]
      let v := mixG v 2 7 8 13 x[12] x[13]
      mixG v 3 4 9 14 x[14] x[15]
    let permuted : Block → Block := fun x => #v[x[2], x[6], x[3], x[10], x[7], x[0], x[4], x[13],
      x[1], x[11], x[12], x[5], x[9], x[14], x[15], x[8]]
    compress cv m counter blockLen flags = feedForward cv ((List.range 7).foldl
      (fun v r => round (Vector.ofFn fun i => m[(schedule r)[i]]) v) start) ∧
    compress cv m counter blockLen flags = feedForward cv
      (round (permuted (permuted (permuted (permuted (permuted (permuted m))))))
      (round (permuted (permuted (permuted (permuted (permuted m)))))
      (round (permuted (permuted (permuted (permuted m))))
      (round (permuted (permuted (permuted m)))
      (round (permuted (permuted m)) (round (permuted m) (round m start))))))) ∧
    compress cv m counter blockLen flags = permutingCompress cv m counter blockLen flags

/-- R113: COMPRESS with a legal block length completes with the compression of its register operands
in OUT and changes nothing else but STATUS; with a longer one it reports BAD_BLOCK_LEN and leaves OUT. -/
def Obligations.CompressCompressesItsOperands : Prop :=
  (∀ s : State, s.regs.blockLen.toNat ≤ 64 → exec .compress s = .next { s with
    pending := none
    status := { s.status with done := true }
    out := compress s.regs.cv s.regs.m (s.regs.ctrHi ++ s.regs.ctrLo) s.regs.blockLen
      s.regs.flags }) ∧
  (∀ s : State, 64 < s.regs.blockLen.toNat → exec .compress s = .next { s with
    pending := none
    status := { s.status with done := true, err := true, errCode := .badBlockLen } })

/-! ## The chunk processor (41_chunk.md) -/

/-- R131: a chunk of at most 1024 bytes is parted into 1 to 16 blocks, each but the last 64 bytes long,
the last 1 to 64 bytes long, or empty only where the chunk is, and the lengths add up. -/
def Obligations.BlocksPartitionTheChunk : Prop :=
  ∀ len : Nat, len ≤ 1024 →
    1 ≤ blockCount len ∧ blockCount len ≤ 16 ∧
    (∀ i, i + 1 < blockCount len → blockBytes len i = 64) ∧
    blockBytes len (blockCount len - 1) ≤ 64 ∧
    (blockBytes len (blockCount len - 1) = 0 ↔ len = 0) ∧
    ((List.range (blockCount len)).map (blockBytes len)).sum = len

/-- R133: message word `j` of a full block `i` is the buffer word `16 i + j`. -/
def Obligations.FullBlockMessageIsTheBufferWords : Prop :=
  ∀ (s : State) (counter : BitVec 64) (root : Bool) (i : Nat) (j : Fin 16),
    64 * i + 64 ≤ s.regs.chunkLen.toNat → i < 16 →
    ((s.chunkIn counter root).words i)[j] = s.readReg (regAt (0x400 + 4 * (16 * i + j.val)))

/-- R134: the flag byte of block `i` of `n`: CHUNK_START on the first, CHUNK_END on the last, ROOT on
the last of a root chunk, and no other flag than the base's. -/
def Obligations.BlockFlagsMarkFirstLastAndRoot : Prop :=
  ∀ (base : Byte) (root : Bool) (i n b : Nat), i < n →
    (blockFlags base root i n).getLsbD b =
      (base.getLsbD b || (b == 0 && i == 0) || (b == 1 && i == n - 1)
        || (b == 3 && root && i == n - 1))

/-- R138, R139: CHUNK completes, where CHUNK_LEN is at most 1024, with what the chunk processor written
as one loop gives, in OUT and, with `R`, in the output material, and changes nothing else but STATUS;
with a longer chunk it reports BAD_CHUNK_LEN. -/
def Obligations.ChunkRunsTheChunkLoop : Prop :=
  (∀ (s : State) (root : Bool), s.regs.chunkLen.toNat ≤ 1024 →
    ∃ last om,
      (s.chunkIn (s.regs.ctrHi ++ s.regs.ctrLo) root).loop (blockCount s.regs.chunkLen.toNat) 0
        s.tree.keyCv none = some (last, om) ∧
      exec (.chunk root) s = .next { s with
        pending := none
        status := { s.status with done := true }
        out := last
        om := if root then om else s.om
        omv := root || s.omv }) ∧
  (∀ (s : State) (root : Bool), 1024 < s.regs.chunkLen.toNat →
    exec (.chunk root) s = .next { s with
      pending := none
      status := { s.status with done := true, err := true, errCode := .badChunkLen } })

/-- R132: no command's effect depends on buffer bytes at or past CHUNK_LEN. -/
def Obligations.BytesPastTheLengthAreNeverRead : Prop :=
  ∀ (i : Instr) (s t : State) (mem : Memory),
    (∀ k < s.regs.chunkLen.toNat, ({ s with mem := mem } : State).buf k = s.buf k) →
    exec i s = .next t → exec i { s with mem := mem } = .next { t with mem := mem }

/-! ## The tree engine (42_tree.md) -/

/-- R151: INIT latches the mode's key CV and base flags, empties the tree and invalidates the output
material, and changes nothing else but STATUS. -/
def Obligations.InitLatchesTheMode : Prop :=
  ∀ s : State, ∃ key flags,
    (s.regs.mode = 0 → key = IV ∧ flags = 0x00) ∧
    (s.regs.mode = 1 → key = s.regs.key ∧ flags = 0x10) ∧
    (s.regs.mode = 2 → key = IV ∧ flags = 0x20) ∧
    (s.regs.mode = 3 → key = s.regs.key ∧ flags = 0x40) ∧
    exec .init s = .next { s with
      pending := none
      status := { s.status with done := true }
      tree := { s.tree with
        keyCv := key, baseFlags := flags, lmode := s.regs.mode, chunkCount := 0, sp := 0 }
      omv := false }

/-- R152, R153: PARENT completes with the parent compression of M under the latched key CV and base
flags at counter 0 and block length 64; with `R` it has ROOT and is the output material. Nothing else
changes but STATUS. -/
def Obligations.ParentCompressesItsChildren : Prop :=
  ∀ s : State,
    exec (.parent false) s = .next { s with
      pending := none
      status := { s.status with done := true }
      out := compress s.tree.keyCv s.regs.m 0 64 (s.tree.baseFlags ||| 0x04) } ∧
    exec (.parent true) s = .next { s with
      pending := none
      status := { s.status with done := true }
      out := compress s.tree.keyCv s.regs.m 0 64 (s.tree.baseFlags ||| 0x0C)
      om := { cv := s.tree.keyCv, m := s.regs.m, blen := 64, flags := s.tree.baseFlags ||| 0x0C }
      omv := true }

/-- R155, R157: COMMIT of a full chunk completes, and leaves the stack that PG's form leaves, which
pushes the chunk's CV and then pops two CVs and pushes their parent, `ctz64(c + 1)` times; OUT(0..8)
is the CV on top; `chunk_count` is one more; nothing else changes but STATUS. The premise on `sp` is
the invariant of R154. -/
def Obligations.CommitPushesThenMerges : Prop :=
  ∀ s : State, s.tree.sp.toNat = popcount64 s.tree.chunkCount → s.regs.chunkLen = 1024 →
    s.tree.chunkCount ≠ BitVec.allOnes 64 →
    ∃ t, exec .commit s = .next t ∧
      t.liveStack = s.tree.popMerge (ctz64 (s.tree.chunkCount + 1))
        (cvOf (s.chunkIn s.tree.chunkCount false).last :: s.liveStack) ∧
      t.liveStack.head? = some (cvOf t.out) ∧
      t.tree.sp.toNat = popcount64 (s.tree.chunkCount + 1) ∧
      t.tree.chunkCount = s.tree.chunkCount + 1 ∧
      t = { s with
        pending := none
        status := { s.status with done := true }
        out := t.out
        tree := { s.tree with
          stack := t.tree.stack, sp := t.tree.sp, chunkCount := t.tree.chunkCount } }

/-- R157, R202: COMMIT reports BAD_CHUNK_LEN for any length but 1024, whatever the count, and
COUNT_OVERFLOW at the largest count, and then changes nothing else but STATUS. -/
def Obligations.CommitChecksLengthThenCount : Prop :=
  (∀ s : State, s.regs.chunkLen ≠ 1024 → exec .commit s = .next { s with
    pending := none
    status := { s.status with done := true, err := true, errCode := .badChunkLen } }) ∧
  (∀ s : State, s.regs.chunkLen = 1024 → s.tree.chunkCount.toNat = 2 ^ 64 - 1 →
    exec .commit s = .next { s with
      pending := none
      status := { s.status with done := true, err := true, errCode := .countOverflow } })

/-- R154: over the CVs of the committed chunks, entry `k` of the stack is the CV of the complete
subtree of the `k`-th set bit of `chunk_count`; COMMIT keeps this when the buffer holds the next
chunk. -/
def Obligations.CommitKeepsTheCompleteSubtrees : Prop :=
  ∀ (s : State) (chunks : Nat → Nat → Byte),
    s.tree.sp.toNat = popcount64 s.tree.chunkCount →
    s.HoldsSubtrees (s.tree.leafCv chunks) → s.regs.chunkLen = 1024 →
    s.tree.chunkCount ≠ BitVec.allOnes 64 →
    (∀ k < 1024, s.buf k = chunks s.tree.chunkCount.toNat k) →
    ∃ t, exec .commit s = .next t ∧ t.tree.chunkCount.toNat = s.tree.chunkCount.toNat + 1 ∧
      t.tree.leafCv chunks = s.tree.leafCv chunks ∧ t.HoldsSubtrees (t.tree.leafCv chunks)

/-- R158, R159, R160: FINALIZE completes, where CHUNK_LEN is at most 1024 and not 0 after a COMMIT.
With an empty stack the root is the lone chunk's; otherwise it is what PG's first form merges last,
which pushes the tail chunk's CV and repeatedly pops the top two. OUT is the root compression, the
output material its inputs; nothing else changes but STATUS. -/
def Obligations.FinalizeGivesTheRootOfTheStack : Prop :=
  ∀ s : State, s.regs.chunkLen.toNat ≤ 1024 →
    (s.tree.chunkCount ≠ 0 → s.regs.chunkLen ≠ 0) → s.tree.sp.toNat ≤ 64 →
    ∃ om : Material, ∃ counter : BitVec 64,
      (s.tree.sp = 0 → counter = s.tree.chunkCount ∧
        om = (s.chunkIn s.tree.chunkCount true).lastBlock) ∧
      (s.tree.sp ≠ 0 → counter = 0 ∧
        s.tree.popRoot (s.tree.sp.toNat + 1)
          (cvOf (s.chunkIn s.tree.chunkCount false).last :: s.liveStack) = some om) ∧
      exec .finalize s = .next { s with
        pending := none
        status := { s.status with done := true }
        out := compress om.cv om.m counter om.blen om.flags
        om := om
        omv := true }

/-- R160: FINALIZE of an over-long chunk, or of an empty one after a COMMIT, reports BAD_CHUNK_LEN and
changes nothing else but STATUS. -/
def Obligations.FinalizeChecksTheLength : Prop :=
  ∀ s : State,
    1024 < s.regs.chunkLen.toNat ∨ (1 ≤ s.tree.chunkCount.toNat ∧ s.regs.chunkLen = 0) →
    exec .finalize s = .next { s with
      pending := none
      status := { s.status with done := true, err := true, errCode := .badChunkLen } }

/-- R164: where the stack holds the complete subtrees of the committed chunks, at least one, FINALIZE
makes the root of the left-leaning tree of the committed chunks and the tail: its left child is the
complete subtree of the largest power of two strictly less than the number of chunks, its right child
the tree of the rest, built the same way. -/
def Obligations.FinalizeBuildsTheLeftLeaningTree : Prop :=
  ∀ (s : State) (leaf : Nat → Cv),
    s.tree.sp.toNat = popcount64 s.tree.chunkCount → s.tree.chunkCount ≠ 0 →
    s.HoldsSubtrees leaf →
    leaf s.tree.chunkCount.toNat = cvOf (s.chunkIn s.tree.chunkCount false).last →
    s.regs.chunkLen.toNat ≤ 1024 → s.regs.chunkLen ≠ 0 →
    ∃ t, exec .finalize s = .next t ∧
      t.om = s.tree.parentMaterial
        (s.tree.subtreeCv leaf (Nat.log2 s.tree.chunkCount.toNat) 0)
        (s.tree.treeCv leaf 64 (2 ^ Nat.log2 s.tree.chunkCount.toNat)
          (s.tree.chunkCount.toNat + 1 - 2 ^ Nat.log2 s.tree.chunkCount.toNat)) true ∧
      t.out = t.om.compress 0

/-- R161: FINALIZE leaves the stack, `sp`, `chunk_count` and the buffer, and a FINALIZE after it gives
the same OUT and the same output material. -/
def Obligations.FinalizeCanBeRepeated : Prop :=
  ∀ s t : State, exec .finalize s = .next t →
    t.tree = s.tree ∧ (∀ k, t.buf k = s.buf k) ∧
    ∀ u, exec .finalize t = .next u → u.out = t.out ∧ u.om = t.om ∧ u.omv = t.omv

/-- R162: in a state of the invariant no compression of COMMIT has ROOT, and a FINALIZE that ends without
error (CHUNK_LEN at most 1024, and not 0 after a COMMIT) does exactly one compression with ROOT, its
last. -/
def Obligations.OneRootCompressionPerHash : Prop :=
  ∀ s : State, s.Inv →
    (∀ j ∈ jobs .commit s, j.isRoot = false) ∧
    (s.regs.chunkLen.toNat ≤ 1024 → (s.tree.chunkCount ≠ 0 → s.regs.chunkLen ≠ 0) →
      ∃ before root, jobs .finalize s = before ++ [root] ∧ root.isRoot = true ∧
        ∀ j ∈ before, j.isRoot = false)

/-- R155: adding one chunk clears as many set bits of the count as there are merges, and sets one; so
the merges COMMIT needs are always there. -/
def Obligations.MergesNeverExceedTheStack : Prop :=
  ∀ c : BitVec 64, c.toNat ≠ 2 ^ 64 - 1 →
    ctz64 (c + 1) ≤ popcount64 c ∧ popcount64 (c + 1) = popcount64 c - ctz64 (c + 1) + 1

/-! ## Output (43_output.md) -/

/-- R182: OUTPUT completes, where there is output material, with the compression of the material at the
counter in OCTR, and changes nothing else but STATUS; without material it reports NO_OUTPUT. -/
def Obligations.OutputRecompressesTheRoot : Prop :=
  (∀ s : State, s.omv = true → exec .output s = .next { s with
    pending := none
    status := { s.status with done := true }
    out := compress s.om.cv s.om.m (s.regs.octrHi ++ s.regs.octrLo) s.om.blen s.om.flags }) ∧
  (∀ s : State, s.omv = false → exec .output s = .next { s with
    pending := none
    status := { s.status with done := true, err := true, errCode := .noOutput } })

/-- R184: in a state of the invariant, OUTPUT at counter 0 right after a FINALIZE without error leaves
OUT as FINALIZE left it. -/
def Obligations.FinalizeLeavesOutputBlockZero : Prop :=
  ∀ s t u : State, s.Inv → exec .finalize s = .next t → t.status.err = false →
    s.regs.octrLo = 0 → s.regs.octrHi = 0 → exec .output t = .next u → u.out = t.out

/-- R183: after OUTPUT at counter `j`, byte `64 j + 4 i + k` of the output stream is byte `k` of OUT
word `i`. -/
def Obligations.OutputStreamIsTheBlocksInOrder : Prop :=
  ∀ (s t : State) (i : Fin 16) (k : Nat), k < 4 → s.omv = true → exec .output s = .next t →
    s.om.streamByte (64 * (s.regs.octrHi ++ s.regs.octrLo).toNat + 4 * i.val + k) =
      t.out[i].extractLsb' (8 * k) 8

/-- R181, R180: the output material and its valid bit after any command, by command, and after reset.
PARENT.R always sets them, CHUNK.R and FINALIZE where they do not report an error, to material with ROOT
whose compression at some counter is OUT; where they do report one, nothing of this changes. -/
def Obligations.OnlyRootFormsWriteTheMaterial : Prop :=
  (∀ s t : State, happen .reset s = .next t → t.omv = false) ∧
  ∀ (i : Instr) (s t : State), exec i s = .next t →
    (i = .compress ∨ i = .commit ∨ i = .output ∨ i = .chunk false ∨ i = .parent false →
      t.om = s.om ∧ t.omv = s.omv) ∧
    (i = .init → t.omv = false) ∧
    (i = .parent true ∨ (i = .chunk true ∧ s.regs.chunkLen.toNat ≤ 1024) ∨
        (i = .finalize ∧ s.regs.chunkLen.toNat ≤ 1024 ∧
          (s.tree.chunkCount ≠ 0 → s.regs.chunkLen ≠ 0)) →
      t.omv = true ∧ t.om.flags.getLsbD 3 = true ∧
        ∃ counter, t.out = compress t.om.cv t.om.m counter t.om.blen t.om.flags) ∧
    ((i = .chunk true ∧ 1024 < s.regs.chunkLen.toNat) ∨
        (i = .finalize ∧ (1024 < s.regs.chunkLen.toNat ∨
          (s.tree.chunkCount ≠ 0 ∧ s.regs.chunkLen = 0))) →
      t.status.err = true ∧ t.om = s.om ∧ t.omv = s.omv ∧ t.out = s.out)

/-- R191: every compression of CHUNK, PARENT, COMMIT, FINALIZE and OUTPUT carries the base flags of the
latched mode, output blocks included. For OUTPUT the premise is the invariant, whose clause on the mode
holds of valid output material after every step. -/
def Obligations.EveryHashCompressionCarriesTheMode : Prop :=
  ∀ (i : Instr) (s : State) (j : Job), i ≠ .compress → (i = .output → s.Inv) → j ∈ jobs i s →
    j.1.flags &&& s.tree.baseFlags = s.tree.baseFlags

/-! ## What every command does and leaves (30_encoding.md R84, R85; 60_exceptions.md) -/

/-- R84: every command completes, in every state: a next state, with BUSY 0 and DONE 1, and, where
ERRCODE and ERR were cleared at issue, ERR set exactly where a code is reported. -/
def Obligations.EveryCommandCompletes : Prop :=
  ∀ (i : Instr) (s : State),
    ∃ t, exec i s = .next t ∧ t.busy = false ∧ t.status.done = true ∧
      (s.status.err = false → s.status.errCode = .none →
        (t.status.err = true ↔ t.status.errCode ≠ .none))

/-- R201, R202: which command reports which error, and when, the first failing check winning, where
ERRCODE was cleared at issue; an illegal word reports ILLEGAL_CMD whatever the state. -/
def Obligations.ErrorsAreThoseOfTheTable : Prop :=
  (∀ (w : Word) (s t : State), legalWord w = false → executeWord w s = .next t →
    t.status.errCode = .illegalCmd) ∧
  ∀ (i : Instr) (s t : State), s.status.errCode = .none → executeWord (encode i) s = .next t →
    t.status.errCode =
      match i with
      | .compress => if 64 < s.regs.blockLen.toNat then .badBlockLen else .none
      | .init => .none
      | .chunk _ => if 1024 < s.regs.chunkLen.toNat then .badChunkLen else .none
      | .parent _ => .none
      | .commit =>
        if s.regs.chunkLen.toNat ≠ 1024 then .badChunkLen
        else if s.tree.chunkCount.toNat = 2 ^ 64 - 1 then .countOverflow else .none
      | .finalize =>
        if 1024 < s.regs.chunkLen.toNat ∨ (s.regs.chunkLen.toNat = 0 ∧ 1 ≤ s.tree.chunkCount.toNat)
        then .badChunkLen else .none
      | .output => if s.omv then .none else .noOutput

/-- R203: a completion, of a legal word or not, that reports an error changes STATUS and nothing else:
errors are precise. The premise is that ERRCODE was cleared at issue. -/
def Obligations.ErrorsChangeOnlyStatus : Prop :=
  ∀ s t : State, s.busy = true → s.status.errCode = .none → happen .engine s = .next t →
    t.status.errCode ≠ .none →
    t = { s with
      pending := none
      status := { s.status with done := true, err := true, errCode := t.status.errCode } }

/-- R85, frame of COMPRESS, OUTPUT, CHUNK and PARENT without `R`, in every outcome: only OUT and STATUS
change, and of STATUS not OVR. -/
def Obligations.PlainCommandsChangeOnlyOut : Prop :=
  ∀ (i : Instr) (s t : State),
    i = .compress ∨ i = .output ∨ i = .chunk false ∨ i = .parent false → exec i s = .next t →
    t = { s with pending := none, status := t.status, out := t.out } ∧
    t.status.ovr = s.status.ovr ∧ ∀ k, t.buf k = s.buf k

/-- R85, frame of FINALIZE, CHUNK.R and PARENT.R, in every outcome: only OUT, the output material with
its valid bit, and STATUS change. -/
def Obligations.RootCommandsChangeOnlyOutAndMaterial : Prop :=
  ∀ (i : Instr) (s t : State), i = .finalize ∨ i = .chunk true ∨ i = .parent true →
    exec i s = .next t →
    t = { s with
      pending := none, status := t.status, out := t.out, om := t.om, omv := t.omv } ∧
    t.status.ovr = s.status.ovr ∧ ∀ k, t.buf k = s.buf k

/-- R85, frame of INIT and COMMIT. INIT changes only the mode state, `chunk_count`, `sp`, the valid bit
and STATUS. COMMIT changes only OUT, the stack, `sp`, `chunk_count` and STATUS, and leaves the stack
entries below the one it pushes; its premise is the invariant of R154. -/
def Obligations.TreeCommandsChangeOnlyTheTree : Prop :=
  (∀ s t : State, exec .init s = .next t →
    t = { s with
      pending := none, status := t.status, omv := t.omv
      tree := { t.tree with stack := s.tree.stack } } ∧
    t.status.ovr = s.status.ovr ∧ ∀ k, t.buf k = s.buf k) ∧
  (∀ s t : State, s.tree.sp.toNat = popcount64 s.tree.chunkCount → exec .commit s = .next t →
    t = { s with
      pending := none, status := t.status, out := t.out
      tree := { s.tree with
        stack := t.tree.stack, sp := t.tree.sp, chunkCount := t.tree.chunkCount } } ∧
    t.status.ovr = s.status.ovr ∧ (∀ k, t.buf k = s.buf k) ∧
    ∀ k, k + 1 < t.tree.sp.toNat → t.stackEntry k = s.stackEntry k)

/-- R85, R37: OUT receives the whole result of the last compression a command performs, and is
unchanged by a command that performs none. -/
def Obligations.OutHoldsTheLastCompression : Prop :=
  ∀ (i : Instr) (s t : State), exec i s = .next t →
    t.out = ((jobs i s).getLast?.map Job.result).getD s.out

/-- R243: how many compressions each command performs. -/
def Obligations.WorkOfEachCommand : Prop :=
  ∀ (i : Instr) (s t : State), s.status.errCode = .none → exec i s = .next t →
    (jobs i s).length =
      if t.status.errCode ≠ .none then 0
      else match i with
        | .compress => 1
        | .init => 0
        | .chunk _ => blockCount s.regs.chunkLen.toNat
        | .parent _ => 1
        | .commit => 16 + ctz64 (s.tree.chunkCount + 1)
        | .finalize => blockCount s.regs.chunkLen.toNat + s.tree.sp.toNat
        | .output => 1

/-! ## The registers and the bus (10_state.md, 20_memory.md) -/

/-- R25, R200: the fields of the word STATUS reads as, and the number of each error code. -/
def Obligations.StatusWordHasItsFields : Prop :=
  ∀ s : State,
    s.statusWord.getLsbD 0 = s.pending.isSome ∧ s.statusWord.getLsbD 1 = s.status.done ∧
    s.statusWord.getLsbD 2 = s.status.err ∧ s.statusWord.getLsbD 3 = s.status.ovr ∧
    s.statusWord.extractLsb' 4 4 =
      (match s.status.errCode with
        | .none => 0
        | .illegalCmd => 1
        | .badBlockLen => 2
        | .badChunkLen => 3
        | .noOutput => 4
        | .countOverflow => 5) ∧ s.statusWord.getLsbD 8 = s.omv ∧
    s.statusWord.extractLsb' 9 7 = 0 ∧ s.statusWord.extractLsb' 16 7 = s.tree.sp ∧
    s.statusWord.getLsbD 23 = false ∧ s.statusWord.extractLsb' 24 2 = s.tree.lmode ∧
    s.statusWord.extractLsb' 26 6 = 0

/-- R64: a bus write by offset, for every offset of the window: STATUS and CTRL always act, the read-only
and reserved offsets never do, everything else is dropped and sets OVR while BUSY, and otherwise CMD
issues and the register or buffer word takes its defined bits. The premise is the canonical form of
memory. -/
def Obligations.BusWriteActsByOffset : Prop :=
  ∀ (s : State) (off : Nat) (v : Word), off % 4 = 0 → off < 4096 →
    Memory.wf s.draws s.mem = true →
    (off = 0x004 → happen (.write off 4 v) s = .next { s with
      status :=
        { done := s.status.done && !v.getLsbD 1
          err := s.status.err && !v.getLsbD 2
          errCode := if v.getLsbD 2 then .none else s.status.errCode
          ovr := s.status.ovr && !v.getLsbD 3 } }) ∧
    (off = 0x008 → happen (.write off 4 v) s = .next { s with irqEn := v.getLsbD 0 }) ∧
    (off = 0x01C ∨ (0x030 ≤ off ∧ off < 0x040) ∨ (0x0C0 ≤ off ∧ off < 0x400) ∨ 0x800 ≤ off →
      happen (.write off 4 v) s = .next s) ∧
    (s.busy = true →
      off = 0x000 ∨ (0x00C ≤ off ∧ off < 0x01C) ∨ (0x020 ≤ off ∧ off < 0x030)
        ∨ (0x040 ≤ off ∧ off < 0x0C0) ∨ (0x400 ≤ off ∧ off < 0x800) →
      happen (.write off 4 v) s = .next { s with status := { s.status with ovr := true } }) ∧
    (s.busy = false →
      (off = 0x000 → happen (.write off 4 v) s = .next { s with
        pending := some v
        status := { s.status with done := false, err := false, errCode := .none } }) ∧
      (off = 0x00C → happen (.write off 4 v) s = .next { s with
        regs := { s.regs with mode := v.extractLsb' 0 2 } }) ∧
      (off = 0x010 → happen (.write off 4 v) s = .next { s with
        regs := { s.regs with chunkLen := v.extractLsb' 0 11 } }) ∧
      (off = 0x014 → happen (.write off 4 v) s = .next { s with
        regs := { s.regs with blockLen := v.extractLsb' 0 7 } }) ∧
      (off = 0x018 → happen (.write off 4 v) s = .next { s with
        regs := { s.regs with flags := v.extractLsb' 0 8 } }) ∧
      (off = 0x020 → happen (.write off 4 v) s = .next { s with
        regs := { s.regs with ctrLo := v } }) ∧
      (off = 0x024 → happen (.write off 4 v) s = .next { s with
        regs := { s.regs with ctrHi := v } }) ∧
      (off = 0x028 → happen (.write off 4 v) s = .next { s with
        regs := { s.regs with octrLo := v } }) ∧
      (off = 0x02C → happen (.write off 4 v) s = .next { s with
        regs := { s.regs with octrHi := v } }) ∧
      (∀ i : Fin 8, off = 0x040 + 4 * i.val → happen (.write off 4 v) s = .next { s with
        regs := { s.regs with key := s.regs.key.set i v } }) ∧
      (∀ i : Fin 8, off = 0x060 + 4 * i.val → happen (.write off 4 v) s = .next { s with
        regs := { s.regs with cv := s.regs.cv.set i v } }) ∧
      (∀ i : Fin 16, off = 0x080 + 4 * i.val → happen (.write off 4 v) s = .next { s with
        regs := { s.regs with m := s.regs.m.set i v } }) ∧
      (∀ w : Fin 256, off = 0x400 + 4 * w.val →
        ∃ mem, happen (.write off 4 v) s = .next { s with mem := mem } ∧
          ∀ k, ({ s with mem := mem } : State).buf k =
            if k / 4 = w.val then v.extractLsb' (8 * (k % 4)) 8 else s.buf k))

/-- R65, R23, R38: a bus read answers the register at its offset, zero for CMD and the reserved offsets,
and changes nothing but the port's read data. -/
def Obligations.BusReadReturnsTheRegister : Prop :=
  ∀ (s : State) (off : Nat), off % 4 = 0 → off < 4096 →
    ∃ v, happen (.read off 4) s = .next { s with rdata := v } ∧
      (off = 0x000 ∨ off = 0x01C ∨ off = 0x038 ∨ off = 0x03C ∨ (0x100 ≤ off ∧ off < 0x400)
        ∨ 0x800 ≤ off → v = 0) ∧
      (off = 0x004 → v = s.statusWord) ∧
      (off = 0x008 → v = if s.irqEn then 1 else 0) ∧
      (off = 0x00C → v = s.regs.mode.setWidth 32) ∧
      (off = 0x010 → v = s.regs.chunkLen.setWidth 32) ∧
      (off = 0x014 → v = s.regs.blockLen.setWidth 32) ∧
      (off = 0x018 → v = s.regs.flags.setWidth 32) ∧
      (off = 0x020 → v = s.regs.ctrLo) ∧ (off = 0x024 → v = s.regs.ctrHi) ∧
      (off = 0x028 → v = s.regs.octrLo) ∧ (off = 0x02C → v = s.regs.octrHi) ∧
      (off = 0x030 → v = s.tree.chunkCount.extractLsb' 0 32) ∧
      (off = 0x034 → v = s.tree.chunkCount.extractLsb' 32 32) ∧
      (∀ i : Fin 8, off = 0x040 + 4 * i.val → v = s.regs.key[i]) ∧
      (∀ i : Fin 8, off = 0x060 + 4 * i.val → v = s.regs.cv[i]) ∧
      (∀ i : Fin 16, off = 0x080 + 4 * i.val → v = s.regs.m[i]) ∧
      (∀ i : Fin 16, off = 0x0C0 + 4 * i.val → v = s.out[i]) ∧
      (∀ w : Fin 256, off = 0x400 + 4 * w.val →
        ∀ k < 4, v.extractLsb' (8 * k) 8 = s.buf (4 * w.val + k))

/-- R39, R64: while idle, a word written to an input register or the buffer reads back with its defined
bits, and every other offset reads as before. -/
def Obligations.WrittenRegistersReadBack : Prop :=
  ∀ (s t : State) (off : Nat) (v : Word), s.busy = false → Memory.wf s.draws s.mem = true →
    off % 4 = 0 →
    (0x00C ≤ off ∧ off < 0x01C) ∨ (0x020 ≤ off ∧ off < 0x030) ∨ (0x040 ≤ off ∧ off < 0x0C0)
      ∨ (0x400 ≤ off ∧ off < 0x800) →
    happen (.write off 4 v) s = .next t →
    t.readReg (regAt off) = v &&&
      (if off = 0x00C then 0x3 else if off = 0x010 then 0x7FF else if off = 0x014 then 0x7F
        else if off = 0x018 then 0xFF else 0xFFFFFFFF) ∧
    ∀ off', off' % 4 = 0 → off' ≠ off → t.readReg (regAt off') = s.readReg (regAt off')

/-- R62: a bus access is refused exactly where it is not 32 bits wide, not aligned, or outside the
window. -/
def Obligations.OnlyWholeAlignedWordsAreAdmitted : Prop :=
  ∀ (s : State) (off size : Nat) (v : Word),
    (size = 4 ∧ off % 4 = 0 ∧ off < 4096 →
      (∃ t, happen (.read off size) s = .next t) ∧ ∃ t, happen (.write off size v) s = .next t) ∧
    (¬(size = 4 ∧ off % 4 = 0 ∧ off < 4096) →
      (∃ r, happen (.read off size) s = .refused r) ∧ ∃ r, happen (.write off size v) s = .refused r)

/-- R73: reads, STATUS writes and, while idle, writes to input registers and the buffer are idempotent;
a write to CMD while idle issues a command, and is not: the second one is dropped and sets OVR. -/
def Obligations.WritesButIssueAreIdempotent : Prop :=
  (∃ (s t : State) (v : Word), s.busy = false ∧ happen (.write 0x000 4 v) s = .next t ∧
    t.pending = some v ∧ happen (.write 0x000 4 v) t ≠ .next t) ∧
  ∀ (s t : State) (off : Nat) (v : Word), Memory.wf s.draws s.mem = true →
    (happen (.read off 4) s = .next t → happen (.read off 4) t = .next t) ∧
    (off = 0x004 → happen (.write off 4 v) s = .next t → happen (.write off 4 v) t = .next t) ∧
    (s.busy = false → off ≠ 0x000 → happen (.write off 4 v) s = .next t →
      happen (.write off 4 v) t = .next t) ∧
    (s.busy = false → happen (.write 0x000 4 v) s = .next t →
      happen (.write 0x000 4 v) t = .next { t with status := { t.status with ovr := true } })

/-- R206: the interrupt output, and when it rises and falls. -/
def Obligations.IrqFollowsEnableAndDone : Prop :=
  (∀ s : State, s.irq = (s.irqEn && s.status.done)) ∧
  (∀ s t : State, s.irqEn = true → s.busy = true → happen .engine s = .next t → t.irq = true) ∧
  (∀ (s t : State) (c : Word), s.busy = false → happen (.write 0x000 4 c) s = .next t →
    t.irq = false) ∧
  (∀ (s t : State) (v : Word), v.getLsbD 1 = true → happen (.write 0x004 4 v) s = .next t →
    t.irq = false) ∧
  (∀ (s t : State) (v : Word), happen (.write 0x008 4 v) s = .next t →
    t.irq = (v.getLsbD 0 && s.status.done)) ∧
  (∀ s t : State, happen .reset s = .next t → t.irq = false)

/-- R205: OVR stays set until the host writes 1 to STATUS bit 3, or reset. -/
def Obligations.OverrunIsSticky : Prop :=
  ∀ (e : Event) (s t : State), s.status.ovr = true → happen e s = .next t →
    t.status.ovr = true ∨ e = .reset ∨
      ∃ v : Word, e = .write 0x004 4 v ∧ v.getLsbD 3 = true ∧ t.status.ovr = false

/-! ## Reset (70_reset_and_hazards.md) -/

/-- R230, R231: a cycle with `rst_n = 0`, whatever else stands at the port, leaves the reset state: the
pending command is gone without a completion, every register is 0, the tree is that of a fresh plain
hash, and nothing is valid; and the machine right after reset is in that state. (That the read data is
then 0 is log 6.) -/
def Obligations.ResetGivesTheResetState : Prop :=
  let isReset := fun t : State =>
    t.pending = none ∧ t.statusWord = 0 ∧ t.status.err = false ∧ t.irqEn = false ∧
    t.regs = { mode := 0, chunkLen := 0, blockLen := 0, flags := 0, ctrLo := 0, ctrHi := 0,
               octrLo := 0, octrHi := 0, key := Vector.replicate 8 0, cv := Vector.replicate 8 0,
               m := Vector.replicate 16 0 } ∧
    t.out = Vector.replicate 16 0 ∧ t.tree.keyCv = IV ∧ t.tree.baseFlags = 0 ∧ t.tree.lmode = 0 ∧
    t.tree.chunkCount = 0 ∧ t.tree.sp = 0 ∧ t.omv = false
  isReset State.reset ∧
  ∀ (s : State) (p : PortCycle), p.rstN = false →
    ∃ t, happenAll p.events s = .next t ∧ isReset t ∧ t.rdata = 0 ∧ t.inputs = s.inputs

/-- R232: the mode state, the count, the stack pointer and the valid bit after reset are what INIT with
MODE 0 leaves. -/
def Obligations.ResetIsPlainInit : Prop :=
  ∀ s t : State, s.regs.mode = 0 → exec .init s = .next t →
    t.tree.keyCv = State.reset.tree.keyCv ∧ t.tree.baseFlags = State.reset.tree.baseFlags ∧
    t.tree.lmode = State.reset.tree.lmode ∧ t.tree.chunkCount = State.reset.tree.chunkCount ∧
    t.tree.sp = State.reset.tree.sp ∧ t.omv = State.reset.omv

/-- The state after reset meets the invariant `State.Inv`. Its bound on om_blen, which R231 calls
unspecified after reset, is the model's choice: a free value of 0 to 64, the range 10_state.md R43
gives it (log 4). -/
def Obligations.ResetMeetsTheInvariant : Prop := State.reset.Inv

/-! ## The whole machine -/

/-- R154, R165, R180, R191, R25: from every state of the invariant every step leads to one: the stack
pointer is the population count of the chunk count, the mode state is that of a mode, valid output
material has ROOT and the mode's base flags, om_blen is at most 64 (that it is so right after a reset
is log 4), the memory is canonical, STATUS is clear while BUSY, and ERR says whether there is a code. -/
def Obligations.EveryStepKeepsTheInvariant : Prop :=
  ∀ s t : State, s.Inv → step s = .next t → t.Inv

/-- R67: "the result is the same whether a command's inputs are read at issue or at completion". Whatever
host accesses happen while the command is pending, its completion after them leaves the same OUT,
input registers, buffer, tree, output material and error code as its completion before them. -/
def Obligations.ResultIsTheSameWheneverTheEngineCompletes : Prop :=
  ∀ (s u t : State) (accesses : List Event), s.Inv → s.busy = true →
    (∀ e ∈ accesses, e.isAccess = true) → happenAll accesses s = .next u →
    happen .engine s = .next t →
    ∃ t', happen .engine u = .next t' ∧ t'.out = t.out ∧ t'.regs = t.regs ∧ t'.mem = t.mem ∧
      t'.tree = t.tree ∧ t'.om = t.om ∧ t'.omv = t.omv ∧ t'.status.errCode = t.status.errCode ∧
      t'.status.err = t.status.err ∧ t'.status.done = true ∧ t'.pending = none

/-- R84, R244: a pending command completes: unless a reset comes first, within as many steps as there
are events and one more, the machine is idle with DONE set. -/
def Obligations.PendingCommandsComplete : Prop :=
  ∀ s : State, s.busy = true → (∀ e ∈ s.inputs, e.wf = true ∧ e ≠ .reset) →
    ∃ k ≤ s.inputs.length + 1, ∃ t : State, core.run k s = .next t ∧ t.busy = false ∧
      t.status.done = true

/-- R219: nothing leaves the block stuck: where every access exists, no run ever stops. -/
def Obligations.NoRunOfExistingAccessesStops : Prop :=
  ∀ s : State, (∀ e ∈ s.inputs, e.wf = true) → ∀ k, ∃ t : State, core.run k s = .next t

/-- R208: in one clock cycle the bus access acts before the completion: the DONE a completion sets is not
cleared by a STATUS write of the same cycle, a write that is dropped still sets OVR, and a read returns
the value from before the completion. Reset beats both. -/
def Obligations.AccessActsBeforeACompletionInItsCycle : Prop :=
  (∀ (s : State) (p : PortCycle), p.rstN = false → happenAll p.events s = .next s.resetNow) ∧
  ∀ (s t : State) (p : PortCycle), p.rstN = true → p.sel = true → p.finishes = true →
    s.busy = true → happenAll p.events s = .next t →
    t.busy = false ∧ t.status.done = true ∧
    (p.we = true → (regAt (4 * p.addr.toNat)).ignoresWrites = false → p.addr ≠ 1 → p.addr ≠ 2 →
      t.status.ovr = true) ∧
    (p.we = false → t.rdata = s.readReg (regAt (4 * p.addr.toNat)))

/-- R20, R37, R40, R41, R66: internal state and OUT change only at a completion or reset; the mode state
only at the completion of INIT, and the count only at the completion of INIT or COMMIT. -/
def Obligations.InternalStateChangesOnlyAtCompletion : Prop :=
  ∀ (e : Event) (s t : State), e ≠ .reset → happen e s = .next t →
    ((e ≠ .engine ∨ s.busy = false) →
      t.tree = s.tree ∧ t.om = s.om ∧ t.omv = s.omv ∧ t.out = s.out) ∧
    (s.pending ≠ some 0x00000002 → t.tree.keyCv = s.tree.keyCv ∧
      t.tree.baseFlags = s.tree.baseFlags ∧ t.tree.lmode = s.tree.lmode) ∧
    (s.pending ≠ some 0x00000002 → s.pending ≠ some 0x00000005 →
      t.tree.chunkCount = s.tree.chunkCount ∧ t.tree.sp = s.tree.sp)

/-! ## The host procedure (42_tree.md R163) -/

/-- R163: the host procedure commits `max(0, ceil(L / 1024) - 1)` chunks, and ends with one FINALIZE, of
the tail of `L - 1024 * commits` bytes. -/
def Obligations.HashCommitsAllButTheTail : Prop :=
  ∀ bytes : List Byte,
    ((Script.hash bytes).filter (· == .cmd .commit)).length = (bytes.length + 1023) / 1024 - 1 ∧
    ∃ before, .cmd .finalize ∉ before ∧
      Script.hash bytes = before ++
        [.wr .chunkLen (BitVec.ofNat 32 (bytes.length - 1024 * ((bytes.length + 1023) / 1024 - 1))),
          .cmd .finalize, .wait]

/-- R91: `WAIT` reads STATUS until the value read has BUSY = 0, and it ends, after finitely many reads, with
the block idle; where the block is idle already it reads once. How many reads there are where a command is
pending is the model's choice and no rule of the spec (log 14, DESIGN CHOICE: the latency of a command is
counted in host accesses, `Script.Driver.left`): one for every access the command still has to wait for,
each answering BUSY = 1, and one more after the completion. -/
def Obligations.WaitReadsStatusUntilIdle : Prop :=
  ∀ d : Script.Driver,
    d.wait.2 = (if d.state.busy then
        List.replicate d.left (.read 0x004 4) ++ [.engine, .read 0x004 4]
      else [.read 0x004 4]) ∧
    happenAll d.wait.2 d.state = .next d.wait.1.state ∧
    d.wait.1.state.busy = false ∧ d.wait.1.state.rdata.getLsbD 0 = false ∧
    ∀ n, d.state.busy = true → 0 < n → n ≤ d.left →
      ∃ t, happenAll (List.replicate n (.read 0x004 4)) d.state = .next t ∧ t.rdata.getLsbD 0 = true
end

