-- ==== Sys2Proof/Laws/State.lean ====
section
/-! SUPPORT. What each named update of the state leaves in each field, and the same for the word and
register stores of the bus. Every lemma of the first part is true by definition. -/

namespace Sys2Proof.Machine

variable (s : State)

@[simp] theorem State.setOut_pending (res : Block) : (s.setOut res).pending = s.pending := rfl
@[simp] theorem State.setOut_status (res : Block) : (s.setOut res).status = s.status := rfl
@[simp] theorem State.setOut_irqEn (res : Block) : (s.setOut res).irqEn = s.irqEn := rfl
@[simp] theorem State.setOut_regs (res : Block) : (s.setOut res).regs = s.regs := rfl
@[simp] theorem State.setOut_out (res : Block) : (s.setOut res).out = res := rfl
@[simp] theorem State.setOut_mem (res : Block) : (s.setOut res).mem = s.mem := rfl
@[simp] theorem State.setOut_tree (res : Block) : (s.setOut res).tree = s.tree := rfl
@[simp] theorem State.setOut_om (res : Block) : (s.setOut res).om = s.om := rfl
@[simp] theorem State.setOut_omv (res : Block) : (s.setOut res).omv = s.omv := rfl
@[simp] theorem State.setOut_rdata (res : Block) : (s.setOut res).rdata = s.rdata := rfl
@[simp] theorem State.setOut_inputs (res : Block) : (s.setOut res).inputs = s.inputs := rfl
@[simp] theorem State.setOut_draws (res : Block) : (s.setOut res).draws = s.draws := rfl

@[simp] theorem State.setMaterial_pending (om : Material) : (s.setMaterial om).pending = s.pending := rfl
@[simp] theorem State.setMaterial_status (om : Material) : (s.setMaterial om).status = s.status := rfl
@[simp] theorem State.setMaterial_irqEn (om : Material) : (s.setMaterial om).irqEn = s.irqEn := rfl
@[simp] theorem State.setMaterial_regs (om : Material) : (s.setMaterial om).regs = s.regs := rfl
@[simp] theorem State.setMaterial_out (om : Material) : (s.setMaterial om).out = s.out := rfl
@[simp] theorem State.setMaterial_mem (om : Material) : (s.setMaterial om).mem = s.mem := rfl
@[simp] theorem State.setMaterial_tree (om : Material) : (s.setMaterial om).tree = s.tree := rfl
@[simp] theorem State.setMaterial_om (om : Material) : (s.setMaterial om).om = om := rfl
@[simp] theorem State.setMaterial_omv (om : Material) : (s.setMaterial om).omv = true := rfl
@[simp] theorem State.setMaterial_rdata (om : Material) : (s.setMaterial om).rdata = s.rdata := rfl
@[simp] theorem State.setMaterial_inputs (om : Material) : (s.setMaterial om).inputs = s.inputs := rfl
@[simp] theorem State.setMaterial_draws (om : Material) : (s.setMaterial om).draws = s.draws := rfl

@[simp] theorem State.complete_pending (code : ErrCode) : (s.complete code).pending = none := rfl
@[simp] theorem State.complete_irqEn (code : ErrCode) : (s.complete code).irqEn = s.irqEn := rfl
@[simp] theorem State.complete_regs (code : ErrCode) : (s.complete code).regs = s.regs := rfl
@[simp] theorem State.complete_out (code : ErrCode) : (s.complete code).out = s.out := rfl
@[simp] theorem State.complete_mem (code : ErrCode) : (s.complete code).mem = s.mem := rfl
@[simp] theorem State.complete_tree (code : ErrCode) : (s.complete code).tree = s.tree := rfl
@[simp] theorem State.complete_om (code : ErrCode) : (s.complete code).om = s.om := rfl
@[simp] theorem State.complete_omv (code : ErrCode) : (s.complete code).omv = s.omv := rfl
@[simp] theorem State.complete_rdata (code : ErrCode) : (s.complete code).rdata = s.rdata := rfl
@[simp] theorem State.complete_inputs (code : ErrCode) : (s.complete code).inputs = s.inputs := rfl
@[simp] theorem State.complete_draws (code : ErrCode) : (s.complete code).draws = s.draws := rfl

@[simp] theorem State.issue_pending (c : Word) : (s.issue c).pending = some c := rfl
@[simp] theorem State.issue_status (c : Word) : (s.issue c).status = { s.status with done := false, err := false, errCode := .none } := rfl
@[simp] theorem State.issue_irqEn (c : Word) : (s.issue c).irqEn = s.irqEn := rfl
@[simp] theorem State.issue_regs (c : Word) : (s.issue c).regs = s.regs := rfl
@[simp] theorem State.issue_out (c : Word) : (s.issue c).out = s.out := rfl
@[simp] theorem State.issue_mem (c : Word) : (s.issue c).mem = s.mem := rfl
@[simp] theorem State.issue_tree (c : Word) : (s.issue c).tree = s.tree := rfl
@[simp] theorem State.issue_om (c : Word) : (s.issue c).om = s.om := rfl
@[simp] theorem State.issue_omv (c : Word) : (s.issue c).omv = s.omv := rfl
@[simp] theorem State.issue_rdata (c : Word) : (s.issue c).rdata = s.rdata := rfl
@[simp] theorem State.issue_inputs (c : Word) : (s.issue c).inputs = s.inputs := rfl
@[simp] theorem State.issue_draws (c : Word) : (s.issue c).draws = s.draws := rfl

@[simp] theorem State.overrun_pending : (s.overrun).pending = s.pending := rfl
@[simp] theorem State.overrun_status : (s.overrun).status = { s.status with ovr := true } := rfl
@[simp] theorem State.overrun_irqEn : (s.overrun).irqEn = s.irqEn := rfl
@[simp] theorem State.overrun_regs : (s.overrun).regs = s.regs := rfl
@[simp] theorem State.overrun_out : (s.overrun).out = s.out := rfl
@[simp] theorem State.overrun_mem : (s.overrun).mem = s.mem := rfl
@[simp] theorem State.overrun_tree : (s.overrun).tree = s.tree := rfl
@[simp] theorem State.overrun_om : (s.overrun).om = s.om := rfl
@[simp] theorem State.overrun_omv : (s.overrun).omv = s.omv := rfl
@[simp] theorem State.overrun_rdata : (s.overrun).rdata = s.rdata := rfl
@[simp] theorem State.overrun_inputs : (s.overrun).inputs = s.inputs := rfl
@[simp] theorem State.overrun_draws : (s.overrun).draws = s.draws := rfl

@[simp] theorem State.writeStatus_pending (v : Word) : (s.writeStatus v).pending = s.pending := rfl
@[simp] theorem State.writeStatus_irqEn (v : Word) : (s.writeStatus v).irqEn = s.irqEn := rfl
@[simp] theorem State.writeStatus_regs (v : Word) : (s.writeStatus v).regs = s.regs := rfl
@[simp] theorem State.writeStatus_out (v : Word) : (s.writeStatus v).out = s.out := rfl
@[simp] theorem State.writeStatus_mem (v : Word) : (s.writeStatus v).mem = s.mem := rfl
@[simp] theorem State.writeStatus_tree (v : Word) : (s.writeStatus v).tree = s.tree := rfl
@[simp] theorem State.writeStatus_om (v : Word) : (s.writeStatus v).om = s.om := rfl
@[simp] theorem State.writeStatus_omv (v : Word) : (s.writeStatus v).omv = s.omv := rfl
@[simp] theorem State.writeStatus_rdata (v : Word) : (s.writeStatus v).rdata = s.rdata := rfl
@[simp] theorem State.writeStatus_inputs (v : Word) : (s.writeStatus v).inputs = s.inputs := rfl
@[simp] theorem State.writeStatus_draws (v : Word) : (s.writeStatus v).draws = s.draws := rfl

@[simp] theorem State.setBuf_pending (k : Nat) (v : Byte) : (s.setBuf k v).pending = s.pending := rfl
@[simp] theorem State.setBuf_status (k : Nat) (v : Byte) : (s.setBuf k v).status = s.status := rfl
@[simp] theorem State.setBuf_irqEn (k : Nat) (v : Byte) : (s.setBuf k v).irqEn = s.irqEn := rfl
@[simp] theorem State.setBuf_regs (k : Nat) (v : Byte) : (s.setBuf k v).regs = s.regs := rfl
@[simp] theorem State.setBuf_out (k : Nat) (v : Byte) : (s.setBuf k v).out = s.out := rfl
@[simp] theorem State.setBuf_mem (k : Nat) (v : Byte) : (s.setBuf k v).mem = Memory.write s.draws s.mem (bufBase + k) v := rfl
@[simp] theorem State.setBuf_tree (k : Nat) (v : Byte) : (s.setBuf k v).tree = s.tree := rfl
@[simp] theorem State.setBuf_om (k : Nat) (v : Byte) : (s.setBuf k v).om = s.om := rfl
@[simp] theorem State.setBuf_omv (k : Nat) (v : Byte) : (s.setBuf k v).omv = s.omv := rfl
@[simp] theorem State.setBuf_rdata (k : Nat) (v : Byte) : (s.setBuf k v).rdata = s.rdata := rfl
@[simp] theorem State.setBuf_inputs (k : Nat) (v : Byte) : (s.setBuf k v).inputs = s.inputs := rfl
@[simp] theorem State.setBuf_draws (k : Nat) (v : Byte) : (s.setBuf k v).draws = s.draws := rfl

/-- A completion leaves DONE set. -/
@[simp] theorem State.complete_done (code : ErrCode) : (s.complete code).status.done = true := by
  unfold State.complete; dsimp only; split <;> rfl

/-- A completion leaves OVR as it is. -/
@[simp] theorem State.complete_ovr (code : ErrCode) :
    (s.complete code).status.ovr = s.status.ovr := by
  unfold State.complete; dsimp only; split <;> rfl

/-- A completion with an error sets ERR; one without leaves it. -/
@[simp] theorem State.complete_err (code : ErrCode) :
    (s.complete code).status.err = (s.status.err || decide (code ≠ .none)) := by
  unfold State.complete; dsimp only; split <;> simp [*]

/-- A completion with an error stores its code; one without leaves the code. -/
@[simp] theorem State.complete_errCode (code : ErrCode) :
    (s.complete code).status.errCode = if code = .none then s.status.errCode else code := by
  unfold State.complete; dsimp only; split <;> simp [*]

/-- The whole status after a completion without error. -/
@[simp] theorem State.complete_none_status :
    (s.complete .none).status = { s.status with done := true } := rfl

@[simp] theorem State.writeStatus_done (v : Word) :
    (s.writeStatus v).status.done = (s.status.done && !v[1]) := by
  change (if v[1] then false else s.status.done) = _
  cases v[1] <;> cases s.status.done <;> rfl

@[simp] theorem State.writeStatus_err (v : Word) :
    (s.writeStatus v).status.err = (s.status.err && !v[2]) := by
  change (if v[2] then false else s.status.err) = _
  cases v[2] <;> cases s.status.err <;> rfl

@[simp] theorem State.writeStatus_ovr (v : Word) :
    (s.writeStatus v).status.ovr = (s.status.ovr && !v[3]) := by
  change (if v[3] then false else s.status.ovr) = _
  cases v[3] <;> cases s.status.ovr <;> rfl

@[simp] theorem State.writeStatus_errCode (v : Word) :
    (s.writeStatus v).status.errCode = if v[2] then .none else s.status.errCode := rfl

/-- A pending command is what makes the machine busy. -/
theorem State.busy_iff : s.busy = true ↔ ∃ c, s.pending = some c := by
  simp [State.busy, Option.isSome_iff_exists]

@[simp] theorem State.busy_of_pending {c : Word} (h : s.pending = some c) : s.busy = true := by
  simp [State.busy, h]

@[simp] theorem State.busy_of_none (h : s.pending = none) : s.busy = false := by
  simp [State.busy, h]

/-- A word store to the buffer changes the memory only. -/
theorem State.setBufWord_eq (w : Nat) (v : Word) :
    ∃ mem, s.setBufWord w v = { s with mem := mem } := ⟨_, rfl⟩

/-- A store reaches the input registers or the buffer, and nothing else. -/
theorem State.storeReg_eq (r : Reg) (v : Word) :
    ∃ regs mem, s.storeReg r v = { s with regs := regs, mem := mem } := by
  cases r <;> exact ⟨_, _, rfl⟩

/-- Everything a register write can do, besides leaving the state as it is. -/
theorem State.writeReg_cases (r : Reg) (v : Word) :
    s.writeReg r v = s ∨ (r = .status ∧ s.writeReg r v = s.writeStatus v) ∨
    (r = .ctrl ∧ s.writeReg r v = { s with irqEn := v.getLsbD 0 }) ∨
    (s.busy = true ∧ s.writeReg r v = s.overrun) ∨
    (s.busy = false ∧ r = .cmd ∧ s.writeReg r v = s.issue v) ∨
    (s.busy = false ∧ s.writeReg r v = s.storeReg r v) := by
  unfold State.writeReg
  split
  · next h => exact .inr (.inl ⟨h, rfl⟩)
  split
  · next h => exact .inr (.inr (.inl ⟨h, rfl⟩))
  split
  · exact .inl rfl
  split
  · next h => exact .inr (.inr (.inr (.inl ⟨h, rfl⟩)))
  next hb =>
    have hb' : s.busy = false := by simpa using hb
    split
    · next h => exact .inr (.inr (.inr (.inr (.inl ⟨hb', h, rfl⟩))))
    · exact .inr (.inr (.inr (.inr (.inr ⟨hb', rfl⟩))))

end Sys2Proof.Machine
end

