-- ==== Sys2Proof/Laws/Memory.lean ====
section
/-! SUPPORT. The laws of memory: reading after writing, and that every operation keeps the canonical
form. -/

namespace Sys2Proof.Machine

/-! ## Finding a listed byte -/

/-- Below where the addresses begin to rise nothing is listed. -/
theorem Memory.find?_of_lt {lo a : Nat} {mem : Memory} (h : Memory.rising lo mem = true)
    (ha : a < lo) : Memory.find? mem a = none := by
  induction mem generalizing lo with
  | nil => rfl
  | cons c rest ih =>
    simp only [Memory.rising, Bool.and_eq_true, decide_eq_true_eq] at h
    simp only [Memory.find?]
    rw [if_neg (by omega)]
    exact ih h.2 (by omega)

theorem Memory.find?_insert_same (mem : Memory) (a : Nat) (v : Byte) :
    Memory.find? (Memory.insert mem a v) a = some v := by
  induction mem with
  | nil => simp [Memory.insert, Memory.find?]
  | cons c rest ih =>
    simp only [Memory.insert]
    split
    · simp [Memory.find?]
    split
    · simp [Memory.find?]
    · rw [Memory.find?, if_neg (by omega), ih]

theorem Memory.find?_insert_other (mem : Memory) {a b : Nat} (v : Byte) (h : b ≠ a) :
    Memory.find? (Memory.insert mem a v) b = Memory.find? mem b := by
  induction mem with
  | nil => simp [Memory.insert, Memory.find?, h.symm]
  | cons c rest ih =>
    simp only [Memory.insert]
    split
    · simp [Memory.find?, h.symm]
    split
    · next h' => simp [Memory.find?, h.symm, ← h']
    · simp [Memory.find?, ih]

theorem Memory.find?_erase_same {lo : Nat} {mem : Memory} (h : Memory.rising lo mem = true) (a : Nat) :
    Memory.find? (Memory.erase mem a) a = none := by
  induction mem generalizing lo with
  | nil => rfl
  | cons c rest ih =>
    simp only [Memory.rising, Bool.and_eq_true, decide_eq_true_eq] at h
    simp only [Memory.erase]
    split
    · exact Memory.find?_of_lt h.2 (by omega)
    · rw [Memory.find?, if_neg (by omega), ih h.2]

theorem Memory.find?_erase_other (mem : Memory) {a b : Nat} (h : b ≠ a) :
    Memory.find? (Memory.erase mem a) b = Memory.find? mem b := by
  induction mem with
  | nil => rfl
  | cons c rest ih =>
    simp only [Memory.erase]
    split
    · next h' => rw [Memory.find?, if_neg (by omega)]
    · simp [Memory.find?, ih]

/-! ## Reading after writing -/

theorem Memory.read_write_same {d lo : Nat} {mem : Memory} (h : Memory.rising lo mem = true) (a : Nat)
    (v : Byte) : Memory.read d (Memory.write d mem a v) a = v := by
  unfold Memory.read Memory.write
  split
  · next hv => rw [Memory.find?_erase_same h]; exact hv.symm
  · rw [Memory.find?_insert_same]; rfl

theorem Memory.read_write_other (d : Nat) (mem : Memory) {a b : Nat} (v : Byte) (h : b ≠ a) :
    Memory.read d (Memory.write d mem a v) b = Memory.read d mem b := by
  unfold Memory.read Memory.write
  split
  · rw [Memory.find?_erase_other mem h]
  · rw [Memory.find?_insert_other mem v h]

/-! ## The canonical form -/

theorem Memory.rising_mono {lo lo' : Nat} {mem : Memory} (h : Memory.rising lo mem = true)
    (hl : lo' ≤ lo) : Memory.rising lo' mem = true := by
  cases mem with
  | nil => rfl
  | cons c rest =>
    simp only [Memory.rising, Bool.and_eq_true, decide_eq_true_eq] at h ⊢
    exact ⟨by omega, h.2⟩

theorem Memory.rising_insert {lo a : Nat} {mem : Memory} (h : Memory.rising lo mem = true) (ha : lo ≤ a)
    (v : Byte) : Memory.rising lo (Memory.insert mem a v) = true := by
  induction mem generalizing lo with
  | nil => simpa [Memory.insert, Memory.rising] using ha
  | cons c rest ih =>
    simp only [Memory.rising, Bool.and_eq_true, decide_eq_true_eq] at h
    simp only [Memory.insert]
    split
    · simp only [Memory.rising, Bool.and_eq_true, decide_eq_true_eq]
      exact ⟨ha, by omega, h.2⟩
    split
    · next h' =>
      simp only [Memory.rising, Bool.and_eq_true, decide_eq_true_eq]
      exact ⟨ha, h' ▸ h.2⟩
    · simp only [Memory.rising, Bool.and_eq_true, decide_eq_true_eq]
      exact ⟨h.1, ih h.2 (by omega)⟩

theorem Memory.rising_erase {lo : Nat} {mem : Memory} (h : Memory.rising lo mem = true) (a : Nat) :
    Memory.rising lo (Memory.erase mem a) = true := by
  induction mem generalizing lo with
  | nil => rfl
  | cons c rest ih =>
    simp only [Memory.rising, Bool.and_eq_true, decide_eq_true_eq] at h
    simp only [Memory.erase]
    split
    · exact Memory.rising_mono h.2 (by omega)
    · simp only [Memory.rising, Bool.and_eq_true, decide_eq_true_eq]
      exact ⟨h.1, ih h.2⟩

/-- What the cells of a list after an insertion are. -/
theorem Memory.mem_insert {mem : Memory} {a : Nat} {v : Byte} {c : Host.Cell}
    (h : c ∈ Memory.insert mem a v) : c = (a, v) ∨ c ∈ mem := by
  induction mem with
  | nil => simpa [Memory.insert] using h
  | cons b rest ih =>
    simp only [Memory.insert] at h
    split at h
    · simpa using h
    split at h
    · simp only [List.mem_cons] at h ⊢; tauto
    · simp only [List.mem_cons] at h ⊢
      rcases h with h | h
      · exact .inr (.inl h)
      · rcases ih h with h | h <;> tauto

theorem Memory.mem_erase {mem : Memory} {a : Nat} {c : Host.Cell} (h : c ∈ Memory.erase mem a) :
    c ∈ mem := by
  induction mem with
  | nil => simp [Memory.erase] at h
  | cons b rest ih =>
    simp only [Memory.erase] at h
    split at h
    · exact List.mem_cons_of_mem _ h
    · simp only [List.mem_cons] at h ⊢
      exact h.imp_right ih

/-- The canonical form, cell by cell. -/
theorem Memory.wf_iff {d : Nat} {mem : Memory} :
    Memory.wf d mem = true ↔ Memory.rising bufBase mem = true ∧
      ∀ c ∈ mem, c.1 < bufBase + bufBytes ∧ c.2 ≠ Memory.unlisted d c.1 := by
  simp [Memory.wf]

@[simp] theorem Memory.wf_nil (d : Nat) : Memory.wf d [] = true := rfl

theorem Memory.wf_rising {d : Nat} {mem : Memory} (h : Memory.wf d mem = true) :
    Memory.rising bufBase mem = true := (Memory.wf_iff.1 h).1

/-- Writing a byte of the chunk buffer keeps the canonical form. -/
theorem Memory.write_wf {d a : Nat} {mem : Memory} (h : Memory.wf d mem = true) (lo : bufBase ≤ a)
    (hi : a < bufBase + bufBytes) (v : Byte) : Memory.wf d (Memory.write d mem a v) = true := by
  obtain ⟨hr, hc⟩ := Memory.wf_iff.1 h
  unfold Memory.write
  split
  · exact Memory.wf_iff.2 ⟨Memory.rising_erase hr a, fun c hm => hc c (Memory.mem_erase hm)⟩
  · next hv =>
    refine Memory.wf_iff.2 ⟨Memory.rising_insert hr lo v, fun c hm => ?_⟩
    rcases Memory.mem_insert hm with rfl | hm
    · exact ⟨hi, hv⟩
    · exact hc c hm

/-- Two canonical memories that read alike are the same list. -/
theorem Memory.ext_of_read {d lo : Nat} {m m' : Memory} (hr : Memory.rising lo m = true)
    (hr' : Memory.rising lo m' = true) (hc : ∀ c ∈ m, c.2 ≠ Memory.unlisted d c.1)
    (hc' : ∀ c ∈ m', c.2 ≠ Memory.unlisted d c.1)
    (h : ∀ a, Memory.read d m a = Memory.read d m' a) : m = m' := by
  induction m generalizing lo m' with
  | nil =>
    cases m' with
    | nil => rfl
    | cons c' r' =>
      have := h c'.1
      simp [Memory.read, Memory.find?] at this
      exact absurd this.symm (hc' c' (by simp))
  | cons c r ih =>
    have head : ∀ (m : Memory) (c : Host.Cell) (r : Memory) (lo : Nat), Memory.rising lo (c :: r) = true →
        c.2 ≠ Memory.unlisted d c.1 → Memory.rising (c.1 + 1) m = true →
        (∀ a, Memory.read d (c :: r) a = Memory.read d m a) → False := by
      intro m c r lo _ hne hm hread
      have := hread c.1
      simp only [Memory.read, Memory.find?, if_pos, Option.getD_some,
        Memory.find?_of_lt hm (Nat.lt_succ_self _), Option.getD_none] at this
      exact hne this
    cases m' with
    | nil =>
      have := h c.1
      simp [Memory.read, Memory.find?] at this
      exact absurd this (hc c (by simp))
    | cons c' r' =>
      have hr1 := hr
      have hr1' := hr'
      simp only [Memory.rising, Bool.and_eq_true, decide_eq_true_eq] at hr1 hr1'
      have haddr : c.1 = c'.1 := by
        rcases Nat.lt_trichotomy c.1 c'.1 with hlt | he | hgt
        · refine (head (c' :: r') c r lo hr (hc c (by simp)) ?_ h).elim
          simp only [Memory.rising, Bool.and_eq_true, decide_eq_true_eq]
          exact ⟨by omega, hr1'.2⟩
        · exact he
        · refine (head (c :: r) c' r' lo hr' (hc' c' (by simp)) ?_ fun a => (h a).symm).elim
          simp only [Memory.rising, Bool.and_eq_true, decide_eq_true_eq]
          exact ⟨by omega, hr1.2⟩
      have hval : c.2 = c'.2 := by
        have := h c.1
        simpa [Memory.read, Memory.find?, haddr] using this
      have hcc : c = c' := Prod.ext haddr hval
      subst hcc
      congr 1
      refine ih hr1.2 hr1'.2 (fun x hx => hc x (by simp [hx])) (fun x hx => hc' x (by simp [hx])) fun a => ?_
      rcases Nat.lt_or_ge a (c.1 + 1) with ha | ha
      · simp [Memory.read, Memory.find?_of_lt hr1.2 ha, Memory.find?_of_lt hr1'.2 ha]
      · have := h a
        simpa [Memory.read, Memory.find?, show c.1 ≠ a by omega] using this

/-! ## The chunk buffer, byte by byte -/

theorem State.buf_setBuf {s : State} {lo : Nat} (h : Memory.rising lo s.mem = true) (k j : Nat) (v : Byte) :
    (s.setBuf k v).buf j = if j = k then v else s.buf j := by
  unfold State.buf
  simp only [State.setBuf_mem, State.setBuf_draws]
  split
  · next hj => rw [hj, Memory.read_write_same h]
  · next hj => exact Memory.read_write_other _ _ _ (by omega)

theorem State.setBuf_rising {s : State} {lo : Nat} (h : Memory.rising lo s.mem = true) (hl : lo ≤ bufBase)
    (k : Nat) (v : Byte) : Memory.rising lo (s.setBuf k v).mem = true := by
  simp only [State.setBuf_mem, Memory.write]
  split
  · exact Memory.rising_erase h _
  · exact Memory.rising_insert h (by omega) _

theorem State.setBuf_wf {s : State} (h : Memory.wf s.draws s.mem = true) {k : Nat} (hk : k < bufBytes)
    (v : Byte) : Memory.wf (s.setBuf k v).draws (s.setBuf k v).mem = true :=
  Memory.write_wf h (by omega) (by omega) v

/-- A word store to the buffer writes the word's four bytes, low byte first, and no other byte. -/
theorem State.buf_setBufWord {s : State} {lo : Nat} (h : Memory.rising lo s.mem = true) (hl : lo ≤ bufBase)
    (w j : Nat) (v : Word) :
    (s.setBufWord w v).buf j = if j / 4 = w then byteOf v (j % 4) else s.buf j := by
  have h1 := State.setBuf_rising h hl (4 * w) (byteOf v 0)
  have h2 := State.setBuf_rising h1 hl (4 * w + 1) (byteOf v 1)
  have h3 := State.setBuf_rising h2 hl (4 * w + 2) (byteOf v 2)
  unfold State.setBufWord
  rw [State.buf_setBuf h3, State.buf_setBuf h2, State.buf_setBuf h1, State.buf_setBuf h]
  have hj : j = 4 * (j / 4) + j % 4 := (Nat.div_add_mod j 4).symm
  have hm : j % 4 < 4 := Nat.mod_lt _ (by decide)
  by_cases hw : j / 4 = w
  · rw [if_pos hw]
    have : j % 4 = 0 ∨ j % 4 = 1 ∨ j % 4 = 2 ∨ j % 4 = 3 := by omega
    rcases this with h | h | h | h <;> rw [h]
    · rw [if_neg (by omega), if_neg (by omega), if_neg (by omega), if_pos (by omega)]
    · rw [if_neg (by omega), if_neg (by omega), if_pos (by omega)]
    · rw [if_neg (by omega), if_pos (by omega)]
    · rw [if_pos (by omega)]
  · rw [if_neg (by omega), if_neg (by omega), if_neg (by omega), if_neg (by omega), if_neg hw]

theorem State.setBufWord_wf {s : State} (h : Memory.wf s.draws s.mem = true) {w : Nat} (hw : w < 256)
    (v : Word) : Memory.wf s.draws (s.setBufWord w v).mem = true := by
  have hb : bufBytes = 1024 := rfl
  have h1 := State.setBuf_wf h (k := 4 * w) (by omega) (byteOf v 0)
  have h2 := State.setBuf_wf h1 (k := 4 * w + 1) (by omega) (byteOf v 1)
  have h3 := State.setBuf_wf h2 (k := 4 * w + 2) (by omega) (byteOf v 2)
  exact State.setBuf_wf h3 (k := 4 * w + 3) (by omega) (byteOf v 3)

end Sys2Proof.Machine
end

