-- ==== Sys2Proof/Laws/Operands.lean ====
section
/-! SUPPORT. The laws of operand assembly: bytes and words, counters, counting functions, chaining
values, and the fields of a command word. -/

namespace Sys2Proof.Machine

/-! ## Bytes and words -/

theorem getLsbD_byteOf (v : Word) (k : Nat) {j : Nat} (h : j < 8) :
    (byteOf v k).getLsbD j = v.getLsbD (8 * k + j) := by
  simp only [byteOf, BitVec.getLsbD_extractLsb', h, decide_true, Bool.true_and]

/-- The four bytes of a word, put back together, are the word. -/
theorem append_byteOf (v : Word) :
    byteOf v 3 ++ (byteOf v 2 ++ (byteOf v 1 ++ byteOf v 0)) = v := by
  apply BitVec.eq_of_getLsbD_eq
  intro i hi
  simp only [BitVec.getLsbD_append]
  split_ifs <;> rw [getLsbD_byteOf _ _ (by omega)] <;> congr 1 <;> omega

/-- A word read from bytes that are the bytes of `v` is `v`. -/
theorem le32_eq {b : Nat → Byte} {i : Nat} {v : Word} (h : ∀ k < 4, b (4 * i + k) = byteOf v k) :
    le32 b i = v := by
  unfold le32
  have h0 := h 0 (by decide)
  rw [Nat.add_zero] at h0
  rw [h0, h 1 (by decide), h 2 (by decide), h 3 (by decide)]
  exact append_byteOf v

/-- A little-endian word depends on its own four bytes. -/
theorem le32_congr {b b' : Nat → Byte} {i : Nat} (h : ∀ k < 4, b (4 * i + k) = b' (4 * i + k)) :
    le32 b i = le32 b' i := by
  unfold le32
  have h0 := h 0 (by decide)
  simp only [Nat.add_zero] at h0
  rw [h0, h 1 (by decide), h 2 (by decide), h 3 (by decide)]

/-- A buffer word read after a word store. -/
theorem State.bufWord_setBufWord {s : State} (h : Memory.wf s.draws s.mem = true) (w j : Nat) (v : Word) :
    (s.setBufWord w v).bufWord j = if j = w then v else s.bufWord j := by
  have hb := State.buf_setBufWord (Memory.wf_rising h) (Nat.le_refl _) w
  unfold State.bufWord
  split
  · next hj =>
    refine le32_eq fun k hk => ?_
    rw [hb, if_pos (by omega), show (4 * j + k) % 4 = k by omega]
  · next hj =>
    refine le32_congr fun k hk => ?_
    rw [hb, if_neg (by omega)]

/-! ## Counters -/

@[simp] theorem lowHalf_counter64 (hi lo : Word) : lowHalf (counter64 hi lo) = lo := by
  apply BitVec.eq_of_getLsbD_eq
  intro i h
  simp only [lowHalf, counter64, BitVec.getLsbD_extractLsb', BitVec.getLsbD_append, h, decide_true,
    Bool.true_and, Nat.zero_add, if_true]

@[simp] theorem highHalf_counter64 (hi lo : Word) : highHalf (counter64 hi lo) = hi := by
  apply BitVec.eq_of_getLsbD_eq
  intro i h
  simp only [highHalf, counter64, BitVec.getLsbD_extractLsb', BitVec.getLsbD_append, h, decide_true,
    Bool.true_and, if_neg (show ¬ 32 + i < 32 by omega), Nat.add_sub_cancel_left]

/-! ## Counting -/

theorem setBits_zero (k : Nat) : setBits k 0 = 0 := by
  induction k with
  | zero => rfl
  | succ k ih => simp [setBits, ih]

theorem setBits_le (k n : Nat) : setBits k n ≤ k := by
  induction k generalizing n with
  | zero => simp [setBits]
  | succ k ih => have := ih (n / 2); simp only [setBits]; omega

/-- A number below `2^k` with no set bit is 0. -/
theorem eq_zero_of_setBits {k n : Nat} (hn : n < 2 ^ k) (h : setBits k n = 0) : n = 0 := by
  induction k generalizing n with
  | zero => simpa using hn
  | succ k ih =>
    simp only [setBits] at h
    have := ih (n := n / 2) (by omega) (by omega)
    omega

/-- Adding one clears the trailing ones and sets the next bit. -/
theorem setBits_succ {k n : Nat} (h : n + 1 < 2 ^ k) :
    setBits k (n + 1) + trailingZeros k (n + 1) = setBits k n + 1 := by
  induction k generalizing n with
  | zero => simp at h
  | succ k ih =>
    simp only [setBits, trailingZeros]
    by_cases hp : n % 2 = 1
    · rw [if_neg (by omega), show (n + 1) / 2 = n / 2 + 1 by omega]
      have := ih (n := n / 2) (by omega)
      omega
    · rw [if_pos (by omega), show (n + 1) / 2 = n / 2 by omega]
      omega

/-- A bit width that holds the number counts all its bits. -/
theorem setBits_pos {k n : Nat} (hn : n < 2 ^ k) (h : n ≠ 0) : 0 < setBits k n :=
  Nat.pos_of_ne_zero fun h0 => h (eq_zero_of_setBits hn h0)

/-- The successor of a count that is not the largest, as a number. -/
theorem toNat_succ {c : BitVec 64} (h : c ≠ BitVec.allOnes 64) : (c + 1).toNat = c.toNat + 1 := by
  have : c.toNat ≠ 2 ^ 64 - 1 := fun hc => h (BitVec.eq_of_toNat_eq (by simpa using hc))
  have := c.isLt
  have h1 : (1 : BitVec 64).toNat = 1 := rfl
  rw [BitVec.toNat_add, h1, Nat.mod_eq_of_lt (by omega)]

/-- `popcount64(c + 1) + ctz64(c + 1) = popcount64(c) + 1` below the largest count
(42_tree.md R155). -/
theorem popcount64_succ {c : BitVec 64} (h : c ≠ BitVec.allOnes 64) :
    popcount64 (c + 1) + ctz64 (c + 1) = popcount64 c + 1 := by
  have := toNat_succ h
  have hlt := (c + 1).isLt
  unfold popcount64 ctz64
  rw [this] at hlt ⊢
  exact setBits_succ hlt

theorem popcount64_le (c : BitVec 64) : popcount64 c ≤ 64 := setBits_le 64 _

theorem popcount64_pos {c : BitVec 64} (h : c ≠ 0) : 0 < popcount64 c :=
  setBits_pos c.isLt fun h0 => h (BitVec.eq_of_toNat_eq (by simpa using h0))

@[simp] theorem popcount64_zero : popcount64 0 = 0 := by simp [popcount64, setBits_zero]

/-! ## Chaining values -/

@[simp] theorem cvOf_getElem (b : Block) (i : Nat) (h : i < 8) : (cvOf b)[i] = b[i] := by
  simp [cvOf]

end Sys2Proof.Machine

namespace Sys2Proof

/-! ## The fields of a command word -/

/-- The bits of a command word, field by field (30_encoding.md R80). -/
theorem getLsbD_commandWord (op : BitVec 4) (r : Bool) (i : Nat) :
    (commandWord op r).getLsbD i =
      if i < 4 then op.getLsbD i else if i = 8 then r else false := by
  simp only [commandWord, BitVec.getLsbD_append, BitVec.getLsbD_ofBool]
  split_ifs <;> first | rfl | omega | (subst_vars; simp)

/-- A word whose reserved fields are clear is the command word of its two fields. -/
theorem eq_commandWord {w : Word} (h4 : w.extractLsb' 4 4 = 0) (h9 : w.extractLsb' 9 23 = 0) :
    w = commandWord (opField w) (rField w) := by
  apply BitVec.eq_of_getLsbD_eq
  intro i hi
  have e4 : ∀ j < 4, w.getLsbD (4 + j) = false := fun j hj => by
    have := congrArg (fun x : BitVec 4 => x.getLsbD j) h4
    simpa [hj] using this
  have e9 : ∀ j < 23, w.getLsbD (9 + j) = false := fun j hj => by
    have := congrArg (fun x : BitVec 23 => x.getLsbD j) h9
    simpa [hj] using this
  rw [getLsbD_commandWord]
  split_ifs with h0 h8
  · simp only [opField, BitVec.getLsbD_extractLsb', h0, decide_true, Bool.true_and, Nat.zero_add]
  · rw [h8, rField]
  · by_cases h : i < 8
    · have := e4 (i - 4) (by omega)
      rwa [show 4 + (i - 4) = i by omega] at this
    · have := e9 (i - 9) (by omega)
      rwa [show 9 + (i - 9) = i by omega] at this

@[simp] theorem opField_commandWord (op : BitVec 4) (r : Bool) : opField (commandWord op r) = op := by
  apply BitVec.eq_of_getLsbD_eq
  intro i hi
  rw [opField, BitVec.getLsbD_extractLsb', Nat.zero_add, getLsbD_commandWord, if_pos hi]
  simp only [hi, decide_true, Bool.true_and]

@[simp] theorem rField_commandWord (op : BitVec 4) (r : Bool) : rField (commandWord op r) = r := by
  rw [rField, getLsbD_commandWord, if_neg (by decide), if_pos rfl]

end Sys2Proof
end

