-- ==== Sys2Proof/Laws/Compress.lean ====
section
/-! SUPPORT. The laws of the compression unit, the flag byte and the chunk processor. -/

namespace Sys2Proof.Machine

/-! ## The quarter-round and the schedule -/

/-- The word a quarter-round leaves at each index, for four different indices: its own four words,
and every other word as it was (40_compress.md R106). -/
theorem mixG_getElem (v : Block) {a b c d : Fin 16} (x y : Word) (j : Fin 16)
    (hbc : b ≠ c) (hbd : b ≠ d) (hcd : c ≠ d) (hab : a ≠ b) (hac : a ≠ c) (had : a ≠ d) :
    (mixG v a b c d x y)[j] =
      if j = a then (quarter ⟨v[a], v[b], v[c], v[d]⟩ x y).a
      else if j = b then (quarter ⟨v[a], v[b], v[c], v[d]⟩ x y).b
      else if j = c then (quarter ⟨v[a], v[b], v[c], v[d]⟩ x y).c
      else if j = d then (quarter ⟨v[a], v[b], v[c], v[d]⟩ x y).d
      else v[j] := by
  simp only [mixG, Fin.getElem_fin, Vector.getElem_set, Fin.val_inj]
  split_ifs <;> first | rfl | (subst_vars; contradiction)

@[simp] theorem schedule_zero : schedule 0 = Vector.ofFn id := rfl

/-- `next[i] = prev[π[i]]` (40_compress.md R103). -/
theorem schedule_succ_getElem (r : Nat) (i : Fin 16) : (schedule (r + 1))[i] = (schedule r)[perm[i]] := by
  simp [schedule]

/-! ## Flags -/

@[simp] theorem flagIf_true (f : Byte) : flagIf true f = f := rfl
@[simp] theorem flagIf_false (f : Byte) : flagIf false f = 0 := rfl

/-- A bit of a conditional flag. -/
@[simp] theorem getLsbD_flagIf (c : Bool) (f : Byte) (i : Nat) :
    (flagIf c f).getLsbD i = (c && f.getLsbD i) := by
  cases c <;> simp

/-- Which blocks have ROOT in their flag byte (41_chunk.md R134). -/
theorem blockFlags_root (base : Byte) (isRoot : Bool) (i n : Nat) :
    (blockFlags base isRoot i n).getLsbD 3 = (base.getLsbD 3 || (isRoot && i + 1 == n)) := by
  simp only [blockFlags, BitVec.getLsbD_or, getLsbD_flagIf]
  simp [flagChunkStart, flagChunkEnd, flagRoot]

/-- A parent compression has ROOT in its flag byte iff it is the root, or the base flags have it. -/
theorem parentFlags_root (base : Byte) (isRoot : Bool) :
    (parentFlags base isRoot).getLsbD 3 = (base.getLsbD 3 || isRoot) := by
  simp only [parentFlags, BitVec.getLsbD_or, getLsbD_flagIf]
  simp [flagParent, flagRoot]

/-- A flag byte put together by `|` has the flags it began with. -/
theorem or_and_self (a b : Byte) : (a ||| b) &&& a = a := by
  apply BitVec.eq_of_getLsbD_eq
  intro i _
  simp only [BitVec.getLsbD_and, BitVec.getLsbD_or]
  cases a.getLsbD i <;> simp

/-- Every block of a chunk carries the base flags (43_output.md R191). -/
theorem blockFlags_base (base : Byte) (isRoot : Bool) (i n : Nat) :
    blockFlags base isRoot i n &&& base = base := by
  unfold blockFlags; rw [BitVec.or_assoc, BitVec.or_assoc]; exact or_and_self _ _

/-- Every parent compression carries the base flags (43_output.md R191). -/
theorem parentFlags_base (base : Byte) (isRoot : Bool) : parentFlags base isRoot &&& base = base := by
  unfold parentFlags; rw [BitVec.or_assoc]; exact or_and_self _ _

/-- No mode's base flags have ROOT. -/
theorem modeFlags_root (md : BitVec 2) : (modeFlags md).getLsbD 3 = false := by
  have : ∀ md : BitVec 2, (modeFlags md).getLsbD 3 = false := by decide
  exact this md

/-! ## The partition of a chunk -/

theorem blockCount_pos (len : Nat) : 0 < blockCount len := by unfold blockCount; omega

theorem blockBytes_le (len i : Nat) : blockBytes len i ≤ 64 := by unfold blockBytes; omega

/-- Every block but the last is full (41_chunk.md R131). -/
theorem blockBytes_full {len i : Nat} (h : i + 1 < blockCount len) : blockBytes len i = 64 := by
  unfold blockCount at h; unfold blockBytes; omega

/-- A block's bytes lie below the chunk's length. -/
theorem lt_of_lt_blockBytes {len i k : Nat} (h : k < blockBytes len i) : 64 * i + k < len := by
  unfold blockBytes at h; omega

theorem blockCount_le {len : Nat} (h : len ≤ 1024) : blockCount len ≤ 16 := by
  unfold blockCount; omega

theorem lastBlock_blen (c : ChunkIn) : c.lastBlock.blen.toNat ≤ 64 := by
  have := blockBytes_le c.len (blockCount c.len - 1)
  simp only [ChunkIn.lastBlock, ChunkIn.block, BitVec.toNat_ofNat]
  omega

/-- A root chunk's last block has ROOT in its flag byte (41_chunk.md R137). -/
theorem lastBlock_root {c : ChunkIn} (h : c.isRoot = true) : c.lastBlock.flags.getLsbD 3 = true := by
  have := blockCount_pos c.len
  simp only [ChunkIn.lastBlock, ChunkIn.block, blockFlags_root, h, Bool.true_and]
  simp [show blockCount c.len - 1 + 1 = blockCount c.len by omega]

/-! ## The chunk processor reads the chunk's bytes only (41_chunk.md R132) -/

theorem ChunkIn.words_congr {c c' : ChunkIn} (hl : c.len = c'.len)
    (hb : ∀ k < c.len, c.buf k = c'.buf k) (i : Nat) : c.words i = c'.words i := by
  have hbyte : ∀ k, c.byte i k = c'.byte i k := fun k => by
    unfold ChunkIn.byte
    rw [← hl]
    split
    · next h => exact hb _ (lt_of_lt_blockBytes h)
    · rfl
  unfold ChunkIn.words
  exact congrArg Vector.ofFn (funext fun j => le32_congr fun k _ => hbyte _)

theorem ChunkIn.cvAt_congr {c c' : ChunkIn} (hl : c.len = c'.len) (hk : c.key = c'.key)
    (hc : c.counter = c'.counter) (hf : c.base = c'.base) (hr : c.isRoot = c'.isRoot)
    (hb : ∀ k < c.len, c.buf k = c'.buf k) (i : Nat) : c.cvAt i = c'.cvAt i := by
  induction i with
  | zero => exact hk
  | succ i ih =>
    simp only [ChunkIn.cvAt, ChunkIn.block, ih, hl, hf, hr, hc, ChunkIn.words_congr hl hb]

theorem ChunkIn.lastBlock_congr {c c' : ChunkIn} (hl : c.len = c'.len) (hk : c.key = c'.key)
    (hc : c.counter = c'.counter) (hf : c.base = c'.base) (hr : c.isRoot = c'.isRoot)
    (hb : ∀ k < c.len, c.buf k = c'.buf k) : c.lastBlock = c'.lastBlock := by
  have h1 := ChunkIn.words_congr hl hb (blockCount c'.len - 1)
  have h2 := ChunkIn.cvAt_congr hl hk hc hf hr hb (blockCount c'.len - 1)
  simp only [ChunkIn.lastBlock, ChunkIn.block, hl, hf, hr, h1, h2]

/-- The chunk processor's last state is a function of the chunk's bytes, its length, the key, the
counter, the base flags and the root bit. -/
theorem ChunkIn.last_congr {c c' : ChunkIn} (hl : c.len = c'.len) (hk : c.key = c'.key)
    (hc : c.counter = c'.counter) (hf : c.base = c'.base) (hr : c.isRoot = c'.isRoot)
    (hb : ∀ k < c.len, c.buf k = c'.buf k) : c.last = c'.last := by
  unfold ChunkIn.last
  rw [ChunkIn.lastBlock_congr hl hk hc hf hr hb, hc]

/-- Only the last block's flag byte knows whether the chunk is the root, so the CVs before it do not
(41_chunk.md R134). -/
theorem ChunkIn.cvAt_isRoot (c : ChunkIn) {i : Nat} (h : i < blockCount c.len) :
    ({ c with isRoot := true } : ChunkIn).cvAt i = ({ c with isRoot := false } : ChunkIn).cvAt i := by
  induction i with
  | zero => rfl
  | succ i ih =>
    have hi : (i + 1 == blockCount c.len) = false := by simp; omega
    simp only [ChunkIn.cvAt, ChunkIn.block, ChunkIn.words, blockFlags, hi, ih (by omega),
      Bool.and_false]
    rfl

end Sys2Proof.Machine
end

