-- ==== Sys2Proof/Laws/Exec.lean ====
section
/-! SUPPORT. What a command, a bus access and a step can do, each said once: later proofs cite these
and unfold no meaning. -/

namespace Sys2Proof.Machine

/-! ## The tree engine's folds -/

@[simp] theorem State.mergeTop_zero (s : State) (res : Block) (sp : BitVec 7) :
    s.mergeTop 0 res sp = (res, sp) := rfl

theorem State.mergeTop_succ (s : State) (n : Nat) (res : Block) (sp : BitVec 7) :
    s.mergeTop (n + 1) res sp =
      s.mergeTop n (s.tree.parent (s.stackEntry (sp - 1).toNat) (cvOf res) false) (sp - 1) := rfl

/-- The folds read the tree engine's state only, and the chunk the input registers and the buffer. -/
theorem State.stackEntry_congr {s t : State} (h : s.tree = t.tree) (k : Nat) :
    s.stackEntry k = t.stackEntry k := by
  unfold State.stackEntry; rw [h]

theorem State.mergeTop_congr {s t : State} (h : s.tree = t.tree) (n : Nat) (res : Block)
    (sp : BitVec 7) : s.mergeTop n res sp = t.mergeTop n res sp := by
  induction n generalizing res sp with
  | zero => rfl
  | succ n ih => rw [State.mergeTop_succ, State.mergeTop_succ, ih, State.stackEntry_congr h, h]

theorem State.foldDown_congr {s t : State} (h : s.tree = t.tree) (n : Nat) (acc : Cv) :
    s.foldDown n acc = t.foldDown n acc := by
  induction n generalizing acc with
  | zero => rfl
  | succ n ih => rw [State.foldDown, State.foldDown, ih, State.stackEntry_congr h, h]

theorem State.chunkIn_congr {s t : State} (ht : s.tree = t.tree) (hr : s.regs = t.regs)
    (hb : s.buf = t.buf) (counter : BitVec 64) (root : Bool) :
    s.chunkIn counter root = t.chunkIn counter root := by
  unfold State.chunkIn; rw [ht, hr, hb]

theorem State.commitFold_congr {s t : State} (ht : s.tree = t.tree) (hr : s.regs = t.regs)
    (hb : s.buf = t.buf) : s.commitFold = t.commitFold := by
  unfold State.commitFold
  rw [State.mergeTop_congr ht, State.chunkIn_congr ht hr hb, ht]

theorem State.rootMaterial_congr {s t : State} (ht : s.tree = t.tree) (hr : s.regs = t.regs)
    (hb : s.buf = t.buf) : s.rootMaterial = t.rootMaterial := by
  unfold State.rootMaterial
  rw [State.foldDown_congr ht, State.stackEntry_congr ht, State.chunkIn_congr ht hr hb,
    State.chunkIn_congr ht hr hb, ht]

/-- Decrementing a stack pointer that is not 0. -/
theorem toNat_pred {sp : BitVec 7} (h : 0 < sp.toNat) : (sp - 1).toNat = sp.toNat - 1 := by
  have h1 : (1 : BitVec 7).toNat = 1 := rfl
  have := sp.isLt
  rw [BitVec.toNat_sub, h1]
  omega

/-- `n` merges take the stack pointer down by `n`. -/
theorem State.mergeTop_sp (s : State) {n : Nat} {sp : BitVec 7} (res : Block) (h : n ≤ sp.toNat) :
    (s.mergeTop n res sp).2.toNat = sp.toNat - n := by
  induction n generalizing sp res with
  | zero => rfl
  | succ n ih =>
    have hp := toNat_pred (sp := sp) (by omega)
    rw [State.mergeTop_succ, ih _ (by omega), hp]
    omega

/-- The merges COMMIT needs are there: `ctz64(c + 1) ≤ popcount64(c)` (42_tree.md R155). -/
theorem ctz64_le_popcount64 {c : BitVec 64} (h : c ≠ BitVec.allOnes 64) :
    ctz64 (c + 1) ≤ popcount64 c := by
  have hs := popcount64_succ h
  have hne : c + 1 ≠ 0 := fun h0 => by
    have := toNat_succ h
    rw [h0] at this
    simp at this
  have := popcount64_pos hne
  omega

/-- The stack pointer COMMIT leaves is the population count of the count it leaves
(42_tree.md R165). -/
theorem State.commitFold_sp (s : State) (hsp : s.tree.sp.toNat = popcount64 s.tree.chunkCount)
    (h : s.tree.chunkCount ≠ BitVec.allOnes 64) :
    (s.commitFold.2 + 1).toNat = popcount64 (s.tree.chunkCount + 1) := by
  have hle := ctz64_le_popcount64 h
  have hs := popcount64_succ h
  have hm : s.commitFold.2.toNat = s.tree.sp.toNat - ctz64 (s.tree.chunkCount + 1) :=
    State.mergeTop_sp s _ (by omega)
  have := popcount64_le (s.tree.chunkCount + 1)
  have h1 : (1 : BitVec 7).toNat = 1 := rfl
  rw [BitVec.toNat_add, h1]
  omega

/-! ## Commands -/

/-- COMPRESS answers in one of two ways. -/
theorem execCompress_eq (s : State) : execCompress s = .next
    (if 64 < s.regs.blockLen.toNat then s.complete .badBlockLen
     else (s.setOut (s.compressMaterial.compress s.ctr)).complete .none) := by
  unfold execCompress raise finish; split <;> rfl

/-- INIT always ends without error. -/
theorem execInit_eq (s : State) : execInit s = .next
    (({ s with
        tree :=
          { s.tree with
            keyCv := modeKeyCv s.regs.mode s.regs.key, baseFlags := modeFlags s.regs.mode
            lmode := s.regs.mode, chunkCount := 0, sp := 0 }
        omv := false } : State).complete .none) := rfl

/-- CHUNK answers in one of two ways. -/
theorem execChunk_eq (root : Bool) (s : State) : execChunk root s = .next
    (if 1024 < s.regs.chunkLen.toNat then s.complete .badChunkLen
     else (if root then (s.setOut (s.chunkIn s.ctr root).last).setMaterial (s.chunkIn s.ctr root).lastBlock
       else s.setOut (s.chunkIn s.ctr root).last).complete .none) := by
  unfold execChunk raise finish; split <;> rfl

/-- PARENT always ends without error. -/
theorem execParent_eq (root : Bool) (s : State) : execParent root s = .next
    ((if root then (s.setOut (s.tree.parent s.leftChild s.rightChild root)).setMaterial
          (s.tree.parentMaterial s.leftChild s.rightChild root)
       else s.setOut (s.tree.parent s.leftChild s.rightChild root)).complete .none) := rfl

/-- COMMIT answers in one of three ways. -/
theorem execCommit_eq (s : State) : execCommit s = .next
    (if s.regs.chunkLen ≠ 1024 then s.complete .badChunkLen
     else if s.tree.chunkCount = BitVec.allOnes 64 then s.complete .countOverflow
     else ({ s with tree := s.tree.push (cvOf s.commitFold.1) s.commitFold.2 }.setOut
       s.commitFold.1).complete .none) := by
  unfold execCommit raise finish; split
  · rfl
  split <;> rfl

/-- FINALIZE answers in one of three ways. -/
theorem execFinalize_eq (s : State) : execFinalize s = .next
    (if 1024 < s.regs.chunkLen.toNat ∨ (s.tree.chunkCount ≠ 0 ∧ s.regs.chunkLen = 0) then
       s.complete .badChunkLen
     else ((s.setOut (s.rootMaterial.compress s.rootCounter)).setMaterial s.rootMaterial).complete
       .none) := by
  unfold execFinalize raise finish
  split
  · next h => rw [if_pos (.inl h)]
  split
  · next h => rw [if_pos (.inr h)]
  · next h h' => rw [if_neg (not_or.2 ⟨h, h'⟩)]

/-- OUTPUT answers in one of two ways. -/
theorem execOutput_eq (s : State) : execOutput s = .next
    (if s.omv = false then s.complete .noOutput
     else (s.setOut (s.om.compress s.octr)).complete .none) := by
  unfold execOutput raise finish; split <;> rfl

/-- Everything a command can do: it ends with a code, having written OUT, the tree and the output
material at most, and none of them where the code is an error. -/
theorem exec_shape (i : Instr) (s : State) :
    ∃ code out tree om omv,
      exec i s = .next ({ s with out := out, tree := tree, om := om, omv := omv }.complete code) ∧
      (code ≠ .none → out = s.out ∧ tree = s.tree ∧ om = s.om ∧ omv = s.omv) := by
  cases i with
  | compress =>
    rw [exec, execCompress_eq]
    split
    · exact ⟨.badBlockLen, _, _, _, _, rfl, fun _ => ⟨rfl, rfl, rfl, rfl⟩⟩
    · exact ⟨.none, _, _, _, _, rfl, fun h => absurd rfl h⟩
  | init => exact ⟨.none, _, _, _, _, execInit_eq s, fun h => absurd rfl h⟩
  | chunk root =>
    rw [exec, execChunk_eq]
    split
    · exact ⟨.badChunkLen, _, _, _, _, rfl, fun _ => ⟨rfl, rfl, rfl, rfl⟩⟩
    cases root
    · exact ⟨.none, _, _, _, _, rfl, fun h => absurd rfl h⟩
    · exact ⟨.none, _, _, _, _, rfl, fun h => absurd rfl h⟩
  | parent root =>
    rw [exec, execParent_eq]
    cases root
    · exact ⟨.none, _, _, _, _, rfl, fun h => absurd rfl h⟩
    · exact ⟨.none, _, _, _, _, rfl, fun h => absurd rfl h⟩
  | commit =>
    rw [exec, execCommit_eq]
    split
    · exact ⟨.badChunkLen, _, _, _, _, rfl, fun _ => ⟨rfl, rfl, rfl, rfl⟩⟩
    split
    · exact ⟨.countOverflow, _, _, _, _, rfl, fun _ => ⟨rfl, rfl, rfl, rfl⟩⟩
    · exact ⟨.none, _, _, _, _, rfl, fun h => absurd rfl h⟩
  | finalize =>
    rw [exec, execFinalize_eq]
    split
    · exact ⟨.badChunkLen, _, _, _, _, rfl, fun _ => ⟨rfl, rfl, rfl, rfl⟩⟩
    · exact ⟨.none, _, _, _, _, rfl, fun h => absurd rfl h⟩
  | output =>
    rw [exec, execOutput_eq]
    split
    · exact ⟨.noOutput, _, _, _, _, rfl, fun _ => ⟨rfl, rfl, rfl, rfl⟩⟩
    · exact ⟨.none, _, _, _, _, rfl, fun h => absurd rfl h⟩

/-- The root material has a length of at most 64, ROOT, and the base flags (42_tree.md R160). -/
theorem rootMaterial_blen (s : State) : s.rootMaterial.blen.toNat ≤ 64 := by
  unfold State.rootMaterial
  split
  · exact lastBlock_blen _
  · exact (by decide : (64 : BitVec 7).toNat ≤ 64)

theorem rootMaterial_root (s : State) : s.rootMaterial.flags.getLsbD 3 = true := by
  unfold State.rootMaterial
  split
  · exact lastBlock_root rfl
  · exact (parentFlags_root _ _).trans (Bool.or_true _)

theorem rootMaterial_base (s : State) :
    s.rootMaterial.flags &&& s.tree.baseFlags = s.tree.baseFlags := by
  unfold State.rootMaterial
  split
  · exact blockFlags_base _ _ _ _
  · exact parentFlags_base _ _

/-- The only changes of the output material by a command: INIT makes it invalid, and the root forms
replace it by a material with ROOT, the base flags and a length of at most 64 (43_output.md R181,
R191). -/
theorem exec_material {i : Instr} {s t : State} (h : exec i s = .next t) :
    (t.om = s.om ∧ t.omv = s.omv) ∨ (i = .init ∧ t.om = s.om ∧ t.omv = false) ∨
    ((i = .chunk true ∨ i = .parent true ∨ i = .finalize) ∧ t.omv = true ∧
      t.om.blen.toNat ≤ 64 ∧ t.om.flags.getLsbD 3 = true ∧
      t.om.flags &&& s.tree.baseFlags = s.tree.baseFlags) := by
  cases i with
  | compress => rw [exec, execCompress_eq] at h; cases h; split <;> exact .inl ⟨rfl, rfl⟩
  | init => rw [exec, execInit_eq] at h; cases h; exact .inr (.inl ⟨rfl, rfl, rfl⟩)
  | chunk root =>
    rw [exec, execChunk_eq] at h; cases h
    split
    · exact .inl ⟨rfl, rfl⟩
    cases root
    · exact .inl ⟨rfl, rfl⟩
    · exact .inr (.inr ⟨.inl rfl, rfl, lastBlock_blen _, lastBlock_root rfl, blockFlags_base _ _ _ _⟩)
  | parent root =>
    rw [exec, execParent_eq] at h; cases h
    cases root
    · exact .inl ⟨rfl, rfl⟩
    · exact .inr (.inr ⟨.inr (.inl rfl), rfl, (by decide : (64 : BitVec 7).toNat ≤ 64),
        (parentFlags_root _ _).trans (Bool.or_true _), parentFlags_base _ _⟩)
  | commit =>
    rw [exec, execCommit_eq] at h; cases h
    split
    · exact .inl ⟨rfl, rfl⟩
    split <;> exact .inl ⟨rfl, rfl⟩
  | finalize =>
    rw [exec, execFinalize_eq] at h; cases h
    split
    · exact .inl ⟨rfl, rfl⟩
    · exact .inr (.inr ⟨.inr (.inr rfl), rfl, rootMaterial_blen s, rootMaterial_root s,
        rootMaterial_base s⟩)
  | output => rw [exec, execOutput_eq] at h; cases h; split <;> exact .inl ⟨rfl, rfl⟩

/-- The only changes of the tree engine's state by a command: INIT starts a hash, and COMMIT pushes. -/
theorem exec_tree {i : Instr} {s t : State} (h : exec i s = .next t) :
    t.tree = s.tree ∨
    (i = .init ∧ t.tree =
      { s.tree with
        keyCv := modeKeyCv s.regs.mode s.regs.key, baseFlags := modeFlags s.regs.mode
        lmode := s.regs.mode, chunkCount := 0, sp := 0 }) ∨
    (i = .commit ∧ s.regs.chunkLen = 1024 ∧ s.tree.chunkCount ≠ BitVec.allOnes 64 ∧
      t.tree = s.tree.push (cvOf s.commitFold.1) s.commitFold.2) := by
  cases i with
  | compress => rw [exec, execCompress_eq] at h; cases h; split <;> exact .inl rfl
  | init => rw [exec, execInit_eq] at h; cases h; exact .inr (.inl ⟨rfl, rfl⟩)
  | chunk root =>
    rw [exec, execChunk_eq] at h; cases h
    split
    · exact .inl rfl
    cases root <;> exact .inl rfl
  | parent root => rw [exec, execParent_eq] at h; cases h; cases root <;> exact .inl rfl
  | commit =>
    rw [exec, execCommit_eq] at h; cases h
    split
    · exact .inl rfl
    next hl =>
      split
      · exact .inl rfl
      · next hc => exact .inr (.inr ⟨rfl, by simpa using hl, hc, rfl⟩)
  | finalize => rw [exec, execFinalize_eq] at h; cases h; split <;> exact .inl rfl
  | output => rw [exec, execOutput_eq] at h; cases h; split <;> exact .inl rfl

/-! ## Command words, bus accesses and steps -/

/-- A command word either is a command's, and completes as that command, or completes with
ILLEGAL_CMD (30_encoding.md R84). -/
theorem executeWord_cases (c : Word) (s : State) :
    (∃ i, decode c = .ok i ∧ executeWord c s = exec i s) ∨
    (∃ e, decode c = .error e ∧ executeWord c s = .next (s.complete .illegalCmd)) := by
  unfold executeWord raise
  cases h : decode c with
  | ok i => exact .inl ⟨i, rfl, rfl⟩
  | error e => exact .inr ⟨e, rfl, rfl⟩

/-- An access is refused exactly where it does not exist (20_memory.md R62). -/
theorem accessRefusal_eq_none {off size : Nat} :
    accessRefusal off size = none ↔ wfAccess off size = true := by
  unfold accessRefusal wfAccess
  simp only [Bool.and_eq_true, beq_iff_eq, decide_eq_true_eq]
  split_ifs <;> simp <;> omega

theorem busRead_next {off size : Nat} (h : wfAccess off size = true) (s : State) :
    busRead off size s = .next { s with rdata := s.readReg (regAt off) } := by
  simp [busRead, accessRefusal_eq_none.2 h]

theorem busWrite_next {off size : Nat} (h : wfAccess off size = true) (v : Word) (s : State) :
    busWrite off size v s = .next (s.writeReg (regAt off) v) := by
  simp [busWrite, accessRefusal_eq_none.2 h]

/-- Everything one event can do when it answers a next state. -/
theorem happen_cases {e : Event} {s t : State} (h : happen e s = .next t) :
    (∃ off size, e = .read off size ∧ wfAccess off size = true ∧
      t = { s with rdata := s.readReg (regAt off) }) ∨
    (∃ off size v, e = .write off size v ∧ wfAccess off size = true ∧
      t = s.writeReg (regAt off) v) ∨
    (e = .engine ∧ s.pending = none ∧ t = s) ∨
    (∃ c, e = .engine ∧ s.pending = some c ∧ executeWord c s = .next t) ∨
    (e = .reset ∧ t = s.resetNow) := by
  cases e with
  | read off size =>
    cases hr : accessRefusal off size with
    | some r => simp [happen, busRead, hr] at h
    | none =>
      have hw := accessRefusal_eq_none.1 hr
      rw [happen, busRead_next hw] at h
      cases h
      exact .inl ⟨off, size, rfl, hw, rfl⟩
  | write off size v =>
    cases hr : accessRefusal off size with
    | some r => simp [happen, busWrite, hr] at h
    | none =>
      have hw := accessRefusal_eq_none.1 hr
      rw [happen, busWrite_next hw] at h
      cases h
      exact .inr (.inl ⟨off, size, v, rfl, hw, rfl⟩)
  | engine =>
    cases hp : s.pending with
    | none =>
      simp only [happen, engineTurn, hp] at h
      cases h
      exact .inr (.inr (.inl ⟨rfl, rfl, rfl⟩))
    | some c =>
      simp only [happen, engineTurn, hp] at h
      exact .inr (.inr (.inr (.inl ⟨c, rfl, rfl, h⟩)))
  | reset =>
    simp only [happen] at h
    cases h
    exact .inr (.inr (.inr (.inr ⟨rfl, rfl⟩)))

/-- A step is the first event still to happen, or the engine's turn when there is none. -/
theorem step_nil {s : State} (h : s.inputs = []) : step s = engineTurn s := by
  unfold step; rw [h]

theorem step_cons {s : State} {e : Event} {rest : List Event} (h : s.inputs = e :: rest) :
    step s = happen e { s with inputs := rest } := by
  unfold step; rw [h]

/-- The step of a machine with no event left is an engine event. -/
theorem step_cases {s t : State} (h : step s = .next t) :
    (s.inputs = [] ∧ happen .engine s = .next t) ∨
    (∃ e rest, s.inputs = e :: rest ∧ happen e { s with inputs := rest } = .next t) := by
  cases hi : s.inputs with
  | nil => rw [step_nil hi] at h; exact .inl ⟨rfl, h⟩
  | cons e rest => rw [step_cons hi] at h; exact .inr ⟨e, rest, rfl, h⟩

/-- A list of events that happens to its end: its first event happens, then the rest. -/
theorem happenAll_cons {e : Event} {rest : List Event} {s u : State}
    (h : happenAll (e :: rest) s = .next u) :
    ∃ t, happen e s = .next t ∧ happenAll rest t = .next u := by
  unfold happenAll at h
  cases hx : happen e s with
  | next t => rw [hx] at h; exact ⟨t, rfl, h⟩
  | fault r => cases r
  | refused r => rw [hx] at h; cases h

/-- Every command answers a next state. -/
theorem exec_next (i : Instr) (s : State) : ∃ t, exec i s = .next t := by
  obtain ⟨_, _, _, _, _, h, _⟩ := exec_shape i s
  exact ⟨_, h⟩

/-- Every event whose access exists leads to a state (60_exceptions.md R219). -/
theorem happen_next {e : Event} (h : e.wf = true) (s : State) : ∃ t, happen e s = .next t := by
  cases e with
  | read off size => exact ⟨_, busRead_next h s⟩
  | write off size v => exact ⟨_, busWrite_next h v s⟩
  | engine =>
    cases hp : s.pending with
    | none => exact ⟨s, by simp [happen, engineTurn, hp]⟩
    | some c =>
      simp only [happen, engineTurn, hp]
      rcases executeWord_cases c s with ⟨i, _, he⟩ | ⟨_, _, he⟩
      · rw [he]; exact exec_next i s
      · exact ⟨_, he⟩
  | reset => exact ⟨_, rfl⟩

/-- Events happen one after the other. -/
theorem happenAll_cons_next {e : Event} {s t : State} (h : happen e s = .next t) (rest : List Event) :
    happenAll (e :: rest) s = happenAll rest t := by
  rw [happenAll, h]

theorem happenAll_append {a b : List Event} {s t : State} (h : happenAll a s = .next t) :
    happenAll (a ++ b) s = happenAll b t := by
  induction a generalizing s with
  | nil => cases h; rfl
  | cons e a ih =>
    obtain ⟨u, hu, h⟩ := happenAll_cons h
    rw [List.cons_append, happenAll_cons_next hu, ih h]

/-- Events whose accesses exist happen to their end. -/
theorem happenAll_next {l : List Event} (h : ∀ e ∈ l, e.wf = true) (s : State) :
    ∃ t, happenAll l s = .next t := by
  induction l generalizing s with
  | nil => exact ⟨s, rfl⟩
  | cons e l ih =>
    obtain ⟨t, ht⟩ := happen_next (h e (List.mem_cons_self ..)) s
    obtain ⟨u, hu⟩ := ih (fun e he => h e (List.mem_cons_of_mem _ he)) t
    exact ⟨u, by rw [happenAll_cons_next ht, hu]⟩

/-- A run of one step more. -/
theorem run_succ {M : Host.Core} {s t : M.State} (h : M.step s = .next t) (k : Nat) :
    M.run (k + 1) s = M.run k t := by
  rw [Host.Core.run, h]

theorem core_run_succ {s t : State} (h : step s = .next t) (k : Nat) :
    core.run (k + 1) s = core.run k t := run_succ (M := core) h k

end Sys2Proof.Machine
end

