-- ==== Sys2Proof/Laws/PerInstr.lean ====
section
/-! SUPPORT. Statements made of every command, one lemma a constructor. -/

namespace Sys2Proof.Laws.EncodesLegally

/-- The command is well formed and its encoding is a legal command word (30_encoding.md R82). -/
def Statement (i : Instr) : Prop := i.wf = true ∧ legalWord (encode i) = true

theorem compress : Statement .compress := by unfold Statement; decide
theorem init : Statement .init := by unfold Statement; decide
theorem chunk (root : Bool) : Statement (.chunk root) := by unfold Statement; cases root <;> decide
theorem parent (root : Bool) : Statement (.parent root) := by unfold Statement; cases root <;> decide
theorem commit : Statement .commit := by unfold Statement; decide
theorem finalize : Statement .finalize := by unfold Statement; decide
theorem output : Statement .output := by unfold Statement; decide

end Sys2Proof.Laws.EncodesLegally
end

