-- ==== Sys2Proof/Laws/Registers.lean ====
section
/-! SUPPORT. The laws of the register map: which register stands where, and what a write to it does. -/

namespace Sys2Proof.Machine

/-! ## The map (10_state.md R23) -/

@[simp] theorem regAt_key (i : Fin 8) : regAt (0x040 + 4 * i.val) = .key i := by
  revert i; decide +kernel

@[simp] theorem regAt_cv (i : Fin 8) : regAt (0x060 + 4 * i.val) = .cv i := by
  revert i; decide +kernel

@[simp] theorem regAt_m (i : Fin 16) : regAt (0x080 + 4 * i.val) = .m i := by
  revert i; decide +kernel

@[simp] theorem regAt_out (i : Fin 16) : regAt (0x0C0 + 4 * i.val) = .out i := by
  revert i; decide +kernel

@[simp] theorem regAt_buf (w : Fin 256) : regAt (0x400 + 4 * w.val) = .buf w := by
  revert w; decide +kernel

/-- What holds of every word of the window holds of every aligned offset in it. -/
theorem forall_offset {P : Nat → Prop} (h : ∀ n : Fin 1024, P (4 * n.val)) {off : Nat}
    (aligned : off % 4 = 0) (inside : off < 4096) : P off := by
  have := h ⟨off / 4, by omega⟩
  rwa [show 4 * (off / 4) = off by omega] at this

/-- The register at an offset stands at that offset. -/
theorem offset_regAt {off : Nat} (aligned : off % 4 = 0) (inside : off < 4096) :
    (regAt off).offset = off :=
  forall_offset (P := fun off => (regAt off).offset = off) (by decide +kernel) aligned inside

/-- Which offsets are read-only or reserved (20_memory.md R64). -/
theorem ignoresWrites_regAt {off : Nat} (aligned : off % 4 = 0) (inside : off < 4096) :
    (regAt off).ignoresWrites = true ↔
      off = 0x01C ∨ (0x030 ≤ off ∧ off < 0x040) ∨ (0x0C0 ≤ off ∧ off < 0x400) ∨ 0x800 ≤ off :=
  forall_offset (P := fun off => (regAt off).ignoresWrites = true ↔
      off = 0x01C ∨ (0x030 ≤ off ∧ off < 0x040) ∨ (0x0C0 ≤ off ∧ off < 0x400) ∨ 0x800 ≤ off)
    (by decide +kernel) aligned inside

/-- Which offsets are reserved (10_state.md R38). -/
theorem regAt_reserved {off : Nat} (aligned : off % 4 = 0) (inside : off < 4096)
    (h : off = 0x01C ∨ off = 0x038 ∨ off = 0x03C ∨ (0x100 ≤ off ∧ off < 0x400) ∨ 0x800 ≤ off) :
    regAt off = .reserved off :=
  forall_offset (P := fun off => (off = 0x01C ∨ off = 0x038 ∨ off = 0x03C ∨
      (0x100 ≤ off ∧ off < 0x400) ∨ 0x800 ≤ off) → regAt off = .reserved off)
    (by decide +kernel) aligned inside h

/-! ## Words and their bytes (00_scope.md R13) -/

/-- Byte `k` of word `i` is byte `4 i + k`. -/
theorem byteOf_le32 (b : Nat → Byte) (i : Nat) {k : Nat} (hk : k < 4) :
    byteOf (le32 b i) k = b (4 * i + k) := by
  have hk' : k = 0 ∨ k = 1 ∨ k = 2 ∨ k = 3 := by omega
  apply BitVec.eq_of_getLsbD_eq
  intro j hj
  rw [getLsbD_byteOf _ _ hj]
  unfold le32
  simp only [BitVec.getLsbD_append]
  rcases hk' with rfl | rfl | rfl | rfl <;> split_ifs <;> first | omega | (congr 1; omega)

/-! ## Writes (20_memory.md R64) -/

variable {s : State} {r : Reg}

theorem writeReg_status (v : Word) : s.writeReg .status v = s.writeStatus v := rfl

theorem writeReg_ctrl (v : Word) : s.writeReg .ctrl v = { s with irqEn := v.getLsbD 0 } := rfl

/-- A read-only or reserved place ignores a write. -/
theorem writeReg_ignored (v : Word) (h : r.ignoresWrites = true) : s.writeReg r v = s := by
  unfold State.writeReg
  rw [if_neg (by rintro rfl; simp [Reg.ignoresWrites] at h),
    if_neg (by rintro rfl; simp [Reg.ignoresWrites] at h), if_pos h]

/-- While a command is pending every other write is dropped and sets OVR. -/
theorem writeReg_busy (v : Word) (h : r.ignoresWrites = false) (hs : r ≠ .status) (hc : r ≠ .ctrl)
    (hb : s.busy = true) : s.writeReg r v = s.overrun := by
  unfold State.writeReg
  rw [if_neg hs, if_neg hc, if_neg (by simp [h]), if_pos hb]

/-- While idle a write to CMD issues. -/
theorem writeReg_cmd (v : Word) (hb : s.busy = false) : s.writeReg .cmd v = s.issue v := by
  change (if s.busy = true then s.overrun else s.issue v) = _
  rw [if_neg (by simp [hb])]

/-- While idle a write to a register or a buffer word stores. -/
theorem writeReg_idle (v : Word) (h : r.ignoresWrites = false) (hs : r ≠ .status) (hc : r ≠ .ctrl)
    (h0 : r ≠ .cmd) (hb : s.busy = false) : s.writeReg r v = s.storeReg r v := by
  unfold State.writeReg
  rw [if_neg hs, if_neg hc, if_neg (by simp [h]), if_neg (by simp [hb]), if_neg h0]

end Sys2Proof.Machine
end

