-- ==== Sys2Proof/Laws/Script.lean ====
section
/-! SUPPORT. The laws of host scripts: their events, what the host reads, and the output stream. -/

namespace Sys2Proof.Machine

/-- A byte of the output stream before its end (43_output.md R183, R186). -/
theorem Material.streamByte_of_lt (om : Material) {n : Nat} (h : n / 64 < outputBlocks) :
    om.streamByte n =
      outputByte (om.compress (BitVec.ofNat 64 (n / 64))) ⟨n % 64, Nat.mod_lt n (by decide)⟩ :=
  if_pos h

namespace Script

/-! ## Runs of a host -/

@[simp] theorem run_nil (d : Driver) : d.run [] = (d, []) := rfl

@[simp] theorem run_cons (d : Driver) (x : Stmt) (rest : List Stmt) :
    d.run (x :: rest) = (((d.stmt x).1.run rest).1, (d.stmt x).2 ++ ((d.stmt x).1.run rest).2) := rfl

/-- A script runs part by part, the second from the host the first leaves. -/
theorem run_append (d : Driver) (a b : List Stmt) :
    d.run (a ++ b) = (((d.run a).1.run b).1, (d.run a).2 ++ ((d.run a).1.run b).2) := by
  induction a generalizing d with
  | nil => rfl
  | cons x a ih => simp only [List.cons_append, run_cons, ih, List.append_assoc]

/-- After an access the host holds the state the access led to. -/
@[simp] theorem next_state (d : Driver) (t : State) : (d.next t).state = t := by
  unfold Driver.next; split <;> rfl

/-- An access happens as its events say: what it can do, said once. -/
theorem access_eq {d : Driver} {e : Event} {t : State} (h : happenAll (d.events e) d.state = .next t) :
    d.access e = (d.next t, d.events e) := by
  unfold Driver.access; rw [h]

/-- An access that exists leads to a state. -/
theorem access_next (d : Driver) {e : Event} (h : e.wf = true) :
    ∃ t, happenAll (d.events e) d.state = .next t ∧ d.access e = (d.next t, d.events e) := by
  have hw : ∀ x ∈ d.events e, x.wf = true := by
    intro x hx
    unfold Driver.events at hx
    split at hx
    · rcases List.mem_cons.1 hx with rfl | hx
      · rfl
      · rw [List.mem_singleton.1 hx]; exact h
    · rw [List.mem_singleton.1 hx]; exact h
  obtain ⟨t, ht⟩ := happenAll_next hw d.state
  exact ⟨t, ht, access_eq ht⟩

/-- STATUS bit 0 is BUSY (10_state.md R25). -/
theorem statusWord_busy (s : State) : s.statusWord.getLsbD 0 = s.busy := by
  unfold State.statusWord
  simp only [BitVec.getLsbD_append]
  repeat rw [if_pos (by omega)]
  simp

@[simp] theorem statusWord_zero (s : State) : s.statusWord[0] = s.busy := statusWord_busy s

/-- BUSY is no matter of what was last read. -/
@[simp] theorem busy_rdata (s : State) (v : Word) : ({ s with rdata := v } : State).busy = s.busy := rfl

/-- A STATUS read answers the STATUS word. -/
theorem happen_readStatus (s : State) :
    happen (.read 0x004 4) s = .next { s with rdata := s.statusWord } :=
  busRead_next (off := 0x004) (size := 4) (by decide) s

/-- What one read of `WAIT` does where the block is idle or its command still has accesses to wait for. -/
theorem poll_early {d : Driver} (h : d.state.busy = true → d.left ≠ 0) :
    d.poll = ({ d with state := { d.state with rdata := d.state.statusWord }, left := d.left - 1 },
      [.read 0x004 4]) := by
  have he : d.events (.read 0x004 4) = [.read 0x004 4] := by
    cases hb : d.state.busy <;> simp_all [Driver.events]
  change d.access (.read 0x004 4) = _
  rw [access_eq (t := { d.state with rdata := d.state.statusWord })
    (by rw [he, happenAll_cons_next (happen_readStatus _)]; rfl), he]
  cases hb : d.state.busy <;> simp_all [Driver.next]

/-- What one read of `WAIT` does where the command's time has come. -/
theorem poll_due {d : Driver} {t : State} (hb : d.state.busy = true) (hl : d.left = 0)
    (ht : happen .engine d.state = .next t) :
    d.poll = (d.next { t with rdata := t.statusWord }, [.engine, .read 0x004 4]) := by
  have he : d.events (.read 0x004 4) = [.engine, .read 0x004 4] := by
    simp [Driver.events, hb, hl]
  change d.access (.read 0x004 4) = _
  rw [access_eq (t := { t with rdata := t.statusWord })
    (by rw [he, happenAll_cons_next ht, happenAll_cons_next (happen_readStatus _)]; rfl), he]

/-! ## Procedures and reads -/

/-- Filling the buffer issues no command. -/
theorem cmd_not_mem_wrbuf (i : Instr) (bytes : List Byte) : .cmd i ∉ wrbuf bytes := by
  intro h
  simp only [wrbuf, List.mem_map] at h
  obtain ⟨w, _, h⟩ := h
  cases h

/-- Reading OUT issues no command. -/
theorem cmd_not_mem_rdout (i : Instr) (n : Nat) : .cmd i ∉ rdout n := by
  intro h
  simp only [rdout, List.mem_map] at h
  obtain ⟨w, _, h⟩ := h
  cases h

/-- `RDOUT n` reads `ceil(n / 4)` words (30_encoding.md R91). -/
@[simp] theorem rdout_length (n : Nat) : (rdout n).length = (n + 3) / 4 := by simp [rdout]

/-- A read of an OUT register that exists is noted, with the register's word. -/
theorem outReads_out (s : State) (i : Fin 16) (rest : List Event) :
    outReads (.read (Reg.out i).offset 4 :: rest) s = s.out[i] :: outReads rest { s with rdata := s.out[i] } := by
  have hoff : wfAccess (Reg.out i).offset 4 = true ∧ regAt (Reg.out i).offset = .out i ∧
      readsOut (.read (Reg.out i).offset 4) = true := by
    revert i; decide
  have hr : happen (.read (Reg.out i).offset 4) s = .next { s with rdata := s.out[i] } := by
    have := busRead_next hoff.1 s
    rwa [hoff.2.1] at this
  simp only [outReads, hr, hoff.2.2, if_true]

end Script

end Sys2Proof.Machine
end

