-- ==== Sys2Proof/Tests/Slice0.lean ====
section
/-! SUPPORT. The model's own tests. Expected results are those of spec/95_test_vectors.md (the vector is
named in each comment) or words written out from the tables of spec/. At the end, for every
obligation with hypotheses, a state and operands that meet them. -/

open Sys2Proof Sys2Proof.Machine

namespace Sys2Proof.Tests

-- One kernel evaluation at a time: together they would reserve more memory than the check allows.
set_option Elab.async false

/-! ## WellFormed refuses, check by check (30_encoding.md R82, 20_memory.md R62) -/

theorem test_legal_refuses_opcode_0 : opcodeAssigned 0x00000000 = false := by decide
theorem test_legal_refuses_opcode_8 : opcodeAssigned 0x00000008 = false := by decide
theorem test_legal_refuses_bit_4 : reservedClear 0x00000013 = false := by decide
theorem test_legal_refuses_bit_9 : reservedClear 0x00000203 = false := by decide
theorem test_legal_refuses_bit_31 : reservedClear 0x80000006 = false := by decide
theorem test_legal_refuses_root_of_compress : rootAllowed 0x00000101 = false := by decide
theorem test_legal_refuses_root_of_output : rootAllowed 0x00000107 = false := by decide
theorem test_access_refuses_a_byte : wfAccess 0x010 1 = false := by decide
theorem test_access_refuses_misaligned : wfAccess 0x012 4 = false := by decide
theorem test_access_refuses_past_the_window : wfAccess 0x1000 4 = false := by decide
theorem test_access_admits_the_last_word : wfAccess 0xFFC 4 = true := by decide

/-! ## Decoding: words written out bit by bit from 30_encoding.md R80 and R81.
Left to right: bits 31:9 (reserved), bit 8 (R), bits 7:4 (reserved), bits 3:0 (OP). -/

theorem test_decode_compress : decode 0b00000000000000000000000_0_0000_0001 = .ok .compress := by decide
theorem test_decode_init : decode 0b00000000000000000000000_0_0000_0010 = .ok .init := by decide
theorem test_decode_chunk : decode 0b00000000000000000000000_0_0000_0011 = .ok (.chunk false) := by decide
theorem test_decode_chunk_root : decode 0b00000000000000000000000_1_0000_0011 = .ok (.chunk true) := by decide
theorem test_decode_parent : decode 0b00000000000000000000000_0_0000_0100 = .ok (.parent false) := by decide
theorem test_decode_parent_root : decode 0b00000000000000000000000_1_0000_0100 = .ok (.parent true) := by decide
theorem test_decode_commit : decode 0b00000000000000000000000_0_0000_0101 = .ok .commit := by decide
theorem test_decode_finalize : decode 0b00000000000000000000000_0_0000_0110 = .ok .finalize := by decide
theorem test_decode_output : decode 0b00000000000000000000000_0_0000_0111 = .ok .output := by decide

/-- V-E1 to V-E5, each rejected by name. -/
theorem test_decode_rejects :
    decode 0x00000000 = .error .reservedOpcode ∧ decode 0x00000008 = .error .reservedOpcode ∧
    decode 0x00000101 = .error .rootNotAllowed ∧ decode 0x00000013 = .error .reservedBits ∧
    decode 0x80000006 = .error .reservedBits := by decide

theorem test_table_word : decodeTableWord 32 0x00000103 = some (.chunk true) ∧
    decodeTableWord 32 0x00000101 = none := by decide

/-! ## One step on a small state -/

/-- Read something of the next state, if there is one. -/
def after {α : Type} (o : Host.Outcome State Fault Refusal) (f : State → α) : Option α :=
  match o with
  | .next t => some (f t)
  | .fault _ => none
  | .refused _ => none

/-- The reset state with other input registers. -/
def withRegs (f : Regs → Regs) : State := { State.reset with regs := f State.reset.regs }

/-- Byte `k` of the test input `T` of 95_test_vectors.md: `k mod 251`. -/
def text (k : Nat) : Byte := BitVec.ofNat 8 (k % 251)

/-- V-G1. -/
theorem test_quarter_small : quarter ⟨0x00000001, 0x00000002, 0x00000003, 0x00000004⟩ 0x00000005 0x00000006 =
    ⟨0x001000ce, 0x879c3839, 0xce0c1c03, 0xce001c00⟩ := by decide

/-- V-G5: the four rotations. -/
theorem test_quarter_rotations : quarter ⟨0, 0, 0, 0⟩ 0x00000001 0 =
    ⟨0x00000011, 0x20220202, 0x11010100, 0x11000100⟩ := by decide

/-- Row 6 of the schedule (95_test_vectors.md section 2.1). -/
theorem test_schedule_row_6 : schedule 6 = #v[11, 15, 5, 0, 1, 9, 8, 6, 14, 10, 2, 12, 3, 4, 7, 13] := by
  decide +kernel

/-- V-C2. -/
theorem test_compress : after (exec .compress (withRegs fun r =>
      { r with m := Vector.ofFn fun i => BitVec.ofNat 32 i.val, blockLen := 64 })) (·.out) =
    some #v[0x681aa544, 0xc139e651, 0x9d033f4b, 0x15a39933, 0x018338af, 0x7979ad51, 0x0e4188eb,
      0x5b22cae6, 0xfdd0e66e, 0xb1e341d4, 0x92b325cf, 0xcdc0fd1f, 0xba549695, 0xe2ad2ec1, 0x489ebf75,
      0x8dad4a25] := by decide +kernel

/-- V-C7: BAD_BLOCK_LEN. -/
theorem test_compress_too_long :
    after (exec .compress (withRegs fun r => { r with blockLen := 65 })) (·.statusWord) =
      some 0x00000026 := by decide +kernel

/-- V-T1: STATUS and the key CV after INIT in keyed mode. -/
theorem test_init_keyed : after (exec .init (withRegs fun r => { r with
      mode := 1
      key := #v[0x03020100, 0x07060504, 0x0b0a0908, 0x0f0e0d0c, 0x13121110, 0x17161514, 0x1b1a1918,
        0x1f1e1d1c] })) (fun t => (t.statusWord, t.tree.keyCv[1], t.tree.baseFlags)) =
    some (0x01000002, 0x07060504, 0x10) := by decide +kernel

/-- V-K9: the counter's high half reaches the compression. -/
theorem test_chunk_counter :
    ChunkIn.last { buf := text, len := 64, key := IV, counter := 0x100000000, base := 0, isRoot := false } =
    #v[0x525261c9, 0x79ae091a, 0x4c0df04c, 0xc00a2fd3, 0x7e8418df, 0xc7f5e5ab, 0xcb1586d8, 0x782e1d5a,
      0x69798a77, 0xdaa524a7, 0xf64fa2db, 0x07d17925, 0xd7a85b0f, 0x3cefe70c, 0x3849f599,
      0xbf56c1ec] := by decide +kernel

/-- V-K5: a root chunk of two blocks, the second one of one byte, in OUT and the output material. -/
theorem test_chunk_root : after (exec (.chunk true)
      { withRegs fun r => { r with chunkLen := 65 } with
        mem := (List.range 65).map fun k => (0x400 + k, text k) })
      (fun t => (cvOf t.out, t.om.cv[0], t.om.blen, t.om.flags, t.statusWord)) =
    some (#v[0xa05f1ede, 0x6ddf70be, 0xfdffe82b, 0xaace990e, 0xc9e8b68e, 0xd8f2633a, 0xcb0ec3d1,
      0xee3d266b], 0x9d3729ff, 1, 0x0a, 0x00000102) := by decide +kernel

/-- V-P4, with the STATUS of its row. -/
theorem test_parent_root : after (exec (.parent true) State.reset) (fun t => (cvOf t.out, t.statusWord)) =
    some (#v[0xa33938ae, 0xbc787bac, 0x6fcb1332, 0xde7af200, 0x1c272c1d, 0x7c013ca1, 0x98f86d81,
      0xd1592f83], 0x00000102) := by decide +kernel

/-- The chaining value of chunk 0 of `T` (V-K6) and the last block of chunk 1 (V-K11). -/
def cv0 : Cv := #v[0x44659e5c, 0xd193e311, 0x10c7bef4, 0x56bcd5cc, 0x7d17ab69, 0xb60e0a61, 0xe9fefc91,
  0xb1e8b42f]

def last1 : Block := #v[0xb8231f5b, 0xa2680339, 0x919550c1, 0xb7d18903, 0xa652eb16, 0x0a4dd3df,
  0xa2226aa6, 0xa71c761b, 0x8b9f9231, 0x5d29b12b, 0x1f9c900e, 0x8458c31d, 0x4f589b39, 0x094f60d8,
  0x2c816357, 0xf35ac9a9]

/-- The reset state after one COMMIT of chunk 0 of `T`, in what FINALIZE and COMMIT read. -/
def afterChunk0 (f : Regs → Regs) : State :=
  { withRegs f with
    tree := { State.reset.tree with
      chunkCount := 1, sp := 1, stack := State.reset.tree.stack.set 0 cv0 } }

/-- V-T2, row 0: STATUS after the first COMMIT. -/
theorem test_commit_first : after (exec .commit (withRegs fun r => { r with chunkLen := 1024 }))
    (fun t => (t.statusWord, t.tree.chunkCount)) = some (0x00010002, 1) := by decide +kernel

/-- V-T2, row 1: COMMIT of chunk 1 merges with the chunk below, left child first (V-P1). -/
theorem test_commit_merge :
    ((afterChunk0 id).mergeTop 1 last1 1).2 = 0 ∧
    cvOf ((afterChunk0 id).mergeTop 1 last1 1).1 =
      #v[0x4f7d1f81, 0x8e253517, 0x928bc627, 0x4a7cff14, 0x476d86ac, 0xf1ee3df7, 0xb50889fd,
        0x4f808fe3] := by decide +kernel

/-- The digest of `T(1025)`: the tail byte is `T[1024] = 20`. -/
theorem test_finalize_two_chunks : after (exec .finalize
      { afterChunk0 (fun r => { r with chunkLen := 1 }) with mem := [(0x400, 20)] })
      (fun t => (cvOf t.out, t.statusWord)) =
    some (#v[0xae7802d0, 0xb327eb47, 0x67cfae4f, 0x3f26feb4, 0x2941d582, 0xd9ffc116, 0xfbb78c7c,
      0x44844b81], 0x00010102) := by decide +kernel

/-- V-T7: an empty tail after a commit. -/
theorem test_finalize_empty_tail :
    after (exec .finalize (afterChunk0 id)) (·.statusWord) = some 0x00010036 := by decide +kernel

/-- V-O2: output block 1 of the empty input. -/
theorem test_output_block_1 : after (exec .output
      { withRegs fun r => { r with octrLo := 1 } with
        om := { cv := IV, m := Vector.replicate 16 0, blen := 0, flags := 0x0B }, omv := true })
      (fun t => (cvOf t.out, t.statusWord)) =
    some (#v[0x7748f526, 0x60f6e889, 0x9ec9e6af, 0x2bc5e0f9, 0x3039e792, 0x5904a824, 0x76f491cf,
      0xdadbfff9], 0x00000102) := by decide +kernel

/-- V-O6: OUTPUT before any root. -/
theorem test_output_none : after (exec .output State.reset) (·.statusWord) = some 0x00000046 := by
  decide +kernel

/-- V-T8: COUNT_OVERFLOW. -/
theorem test_commit_overflow : after (exec .commit
      { withRegs fun r => { r with chunkLen := 1024 } with
        tree := { State.reset.tree with chunkCount := BitVec.allOnes 64 } }) (fun t => t.statusWord) =
    some 0x00000056 := by decide +kernel

/-- V-E5: FINALIZE with bit 31 set does not run. -/
theorem test_illegal_word : after (step (State.reset.withFetchWord 32 0x80000006)) (·.statusWord) =
    some 0x00000016 := by decide +kernel

/-- V-E7: while INIT is pending a write to MODE is dropped and sets OVR. -/
theorem test_busy_write : after (happenAll [.write 0x000 4 2, .write 0x00C 4 1, .engine] State.reset)
    (fun t => (t.statusWord, t.regs.mode)) = some (0x0000000A, 0) := by decide +kernel

/-- V-E8: after INIT is complete the same write lands. -/
theorem test_idle_write : after (happenAll [.write 0x000 4 2, .engine, .write 0x00C 4 1] State.reset)
    (fun t => (t.statusWord, t.regs.mode)) = some (0x00000002, 1) := by decide +kernel

/-- V-T6: CHUNK_LEN keeps 11 bits. -/
theorem test_chunk_len_mask : after (happenAll [.write 0x010 4 0xFFFFFFFF, .read 0x010 4] State.reset)
    (·.rdata) = some 0x7FF := by decide +kernel

/-! ## Host procedures (43_output.md R188, R191) -/

/-- Reset with V-O1's first two words in OUT. -/
def shown : State := { State.reset with out := (State.reset.out.set 0 0xb94913af).set 1 0xa6a1f9f5 }

/-- `RDOUT 5` of V-O1's first two words: the second word is read and its last three bytes dropped. -/
theorem test_rdout_truncates :
    Script.outputBytes 5 (Script.events (fun _ => 0) (Script.rdout 5) shown) shown =
    [0xaf, 0x13, 0x49, 0xb9, 0xf5] := by decide +kernel

/-- INIT with two accesses to its completion, then INIT with none. -/
theorem test_waits :
    Script.events (fun k => if k = 0 then 2 else 0) (Script.run .init ++ Script.run .init) State.reset =
    [.write 0 4 2, .read 4 4, .read 4 4, .engine, .read 4 4, .write 0 4 2, .engine, .read 4 4] := by
  decide +kernel

/-- `WAIT` while idle reads STATUS once, whatever the latency. -/
theorem test_wait_idle : Script.events (fun _ => 7) [.wait] State.reset = [.read 4 4] := by decide +kernel

/-- The program of V-E7 and V-E8: both outcomes are runs of it. -/
def program : List Script.Stmt := [.cmd .init, .wr .mode 1, .cmd .compress, .wait]

/-- V-E7: INIT completes after the third write. -/
theorem test_latency_2 : Script.events (fun _ => 2) program State.reset =
      [.write 0 4 2, .write 0xC 4 1, .write 0 4 1, .engine, .read 4 4] ∧
    after (happenAll (Script.events (fun _ => 2) program State.reset) State.reset)
      (fun t => (t.statusWord, t.regs.mode)) = some (0x0000000A, 0) := by decide +kernel

/-- V-E8: INIT completes before `WR MODE, 1`, and COMPRESS at once after its issue. -/
theorem test_latency_0 : Script.events (fun _ => 0) program State.reset =
      [.write 0 4 2, .engine, .write 0xC 4 1, .write 0 4 1, .engine, .read 4 4] ∧
    after (happenAll (Script.events (fun _ => 0) program State.reset) State.reset)
      (fun t => (t.statusWord, t.regs.mode)) = some (0x00000002, 1) := by decide +kernel

/-- The reads of OUT are those of `RDOUT min(N, 64)` and of the last block's share: none for `N = 0`, 8
for 32, and 16 + 1 for 65. -/
theorem test_output_reads : (Script.readOutput 0).length = 0 ∧ (Script.readOutput 32).length = 8 ∧
    (Script.readOutput 65).length = 16 + (2 + 2 + 1) := by decide +kernel

/-! ## What the obligations assume can be met -/

/-- An idle state of the invariant. -/
def quiet : State :=
  { State.reset with om := { cv := IV, m := Vector.replicate 16 0, blen := 64, flags := 0x0B } }

/-- A state of the invariant with a command pending, and events still to happen. -/
def working (c : Word) (events : List Event) : State :=
  { quiet with pending := some c, inputs := events }

theorem test_quiet_inv : quiet.Inv := by
  refine ⟨?_, rfl, fun _ => rfl, ?_, ?_, rfl, ?_, ?_, ?_⟩ <;> decide +kernel

theorem test_working_inv (c : Word) (events : List Event) : (working c events).Inv :=
  ⟨test_quiet_inv.sp_popcount, rfl, fun _ => rfl, test_quiet_inv.om_blen_le, test_quiet_inv.om_root, rfl,
    fun _ => ⟨rfl, rfl, rfl⟩, test_quiet_inv.err_iff_code, test_quiet_inv.om_mode⟩

theorem test_meets_DecodeInvertsEncode :
    (Instr.chunk true).wf = true ∧ decode 0x00000103 = .ok (.chunk true) := by decide

theorem test_meets_IllegalWordsOnlyReportIllegalCmd :
    quiet.busy = false ∧ legalWord 0x00000013 = false ∧
    (working 0x00000013 []).pending = some 0x00000013 := ⟨rfl, by decide, rfl⟩

theorem test_meets_StepRunsThePendingCommand :
    decode 0x00000103 = .ok (.chunk true) ∧
    ((working 0x00000103 [.engine]).inputs = [.engine] ∧
      (working 0x00000103 [.engine]).pending = some 0x00000103) ∧
    ((working 0x00000103 []).inputs = [] ∧ (working 0x00000103 []).pending = some 0x00000103) ∧
    ({ quiet with inputs := [.engine] } : State).pending = none ∧
    (quiet.inputs = [] ∧ quiet.pending = none) := ⟨by decide, ⟨rfl, rfl⟩, ⟨rfl, rfl⟩, rfl, rfl, rfl⟩

theorem test_meets_QuarterRound : ([3, 4, 9, 14] : List (Fin 16)).Nodup := by decide

theorem test_meets_DisjointQuarterRoundsCommute :
    ([0, 5, 10, 15, 3, 4, 9, 14] : List (Fin 16)).Nodup := by decide

theorem test_meets_CompressCompressesItsOperands :
    (64 : BitVec 7).toNat ≤ 64 ∧ 64 < (65 : BitVec 7).toNat := by decide

theorem test_meets_BlocksPartitionTheChunk :
    (0 ≤ 1024 ∧ 1024 ≤ 1024) ∧ (15 + 1 = blockCount 1024 ∧ 14 + 1 < blockCount 1024) := by decide

theorem test_meets_FullBlockMessageIsTheBufferWords :
    64 * 15 + 64 ≤ (withRegs fun r => { r with chunkLen := 1024 }).regs.chunkLen.toNat ∧ 15 < 16 ∧
    64 * 0 + 64 ≤ (withRegs fun r => { r with chunkLen := 127 }).regs.chunkLen.toNat := by decide +kernel

theorem test_meets_BlockFlags : 0 < 16 ∧ 15 < 16 ∧ 0 < 1 := by decide

theorem test_meets_ChunkRunsTheChunkLoop :
    (0 : BitVec 11).toNat ≤ 1024 ∧ (1024 : BitVec 11).toNat ≤ 1024 ∧ 1024 < (1025 : BitVec 11).toNat := by
  decide

/-- Two buffers that differ at byte 1 only, for a chunk of one byte. -/
theorem test_meets_BytesPastTheLengthAreNeverRead :
    ∃ (s t : State) (mem : Memory), mem ≠ s.mem ∧ s.regs.chunkLen = 1 ∧
      (∀ k < s.regs.chunkLen.toNat, ({ s with mem := mem } : State).buf k = s.buf k) ∧
      exec (.chunk true) s = .next t := by
  obtain ⟨t, ht⟩ := exec_next (.chunk true) (withRegs fun r => { r with chunkLen := 1 })
  refine ⟨_, t, [(0x401, 5)], by decide +kernel, rfl, fun k hk => ?_, ht⟩
  have : k = 0 := Nat.lt_one_iff.1 hk
  subst this
  rfl

theorem test_meets_InitLatchesTheMode : (withRegs fun r => { r with mode := 0 }).regs.mode = 0 ∧
    (withRegs fun r => { r with mode := 1 }).regs.mode = 1 ∧
    (withRegs fun r => { r with mode := 2 }).regs.mode = 2 ∧
    (withRegs fun r => { r with mode := 3 }).regs.mode = 3 := ⟨rfl, rfl, rfl, rfl⟩

/-- A full stack but for one entry, one COMMIT before the largest count. -/
def almostFull : State :=
  { withRegs fun r => { r with chunkLen := 1024 } with
    tree := { State.reset.tree with chunkCount := BitVec.allOnes 64 - 1, sp := 63 } }

theorem test_meets_CommitPushesThenMerges :
    almostFull.tree.sp.toNat = popcount64 almostFull.tree.chunkCount ∧
    almostFull.regs.chunkLen = 1024 ∧ almostFull.tree.chunkCount ≠ BitVec.allOnes 64 := by decide +kernel

theorem test_meets_CommitChecksLengthThenCount :
    (withRegs fun r => { r with chunkLen := 1023 }).regs.chunkLen ≠ 1024 ∧
    (withRegs fun r => { r with chunkLen := 1025 }).regs.chunkLen ≠ 1024 ∧
    (BitVec.allOnes 64).toNat = 2 ^ 64 - 1 := by decide +kernel

/-- The chunks of an input of two full chunks; the second one is in the buffer of `s`. -/
def twoChunks (s : State) (i : Nat) : Nat → Byte := if i = 0 then text else s.buf

/-- One committed chunk, its CV on the stack. -/
def oneLeaf (len : BitVec 11) (leaf : Cv) : State :=
  { withRegs fun r => { r with chunkLen := len } with
    tree := { State.reset.tree with
      chunkCount := 1, sp := 1, stack := State.reset.tree.stack.set 0 leaf } }

theorem oneLeaf_holds (len : BitVec 11) (leaf : Nat → Cv) : (oneLeaf len (leaf 0)).HoldsSubtrees leaf := by
  intro e he hb
  have hc : (oneLeaf len (leaf 0)).tree.chunkCount = 1 := rfl
  rw [hc] at hb ⊢
  obtain rfl : e = 0 :=
    (by decide +kernel : ∀ e < 64, (1 : BitVec 64).getLsbD e = true → e = 0) e he hb
  rw [show (1 : BitVec 64).toNat / 2 ^ (0 + 1) = 0 by decide, setBits_zero, Nat.zero_mul]
  exact Vector.getElem_set_self (by decide)

theorem test_meets_CommitKeepsTheCompleteSubtrees :
    ∃ (s : State) (chunks : Nat → Nat → Byte),
      s.tree.sp.toNat = popcount64 s.tree.chunkCount ∧ s.HoldsSubtrees (s.tree.leafCv chunks) ∧
      s.regs.chunkLen = 1024 ∧ s.tree.chunkCount ≠ BitVec.allOnes 64 ∧
      ∀ k < 1024, s.buf k = chunks s.tree.chunkCount.toNat k := by
  let leaf := State.reset.tree.leafCv (twoChunks State.reset)
  exact ⟨oneLeaf 1024 (leaf 0), twoChunks State.reset, (by decide : 1 = popcount64 1),
    oneLeaf_holds 1024 leaf, rfl, (by decide : (1 : BitVec 64) ≠ BitVec.allOnes 64), fun _ _ => rfl⟩

theorem test_meets_FinalizeGivesTheRootOfTheStack :
    ((withRegs id).regs.chunkLen.toNat ≤ 1024 ∧ (withRegs id).tree.chunkCount = 0 ∧
      (withRegs id).tree.sp = 0) ∧
    ((oneLeaf 1 cv0).regs.chunkLen.toNat ≤ 1024 ∧ (oneLeaf 1 cv0).regs.chunkLen ≠ 0 ∧
      (oneLeaf 1 cv0).tree.sp ≠ 0 ∧ (oneLeaf 1 cv0).tree.sp.toNat ≤ 64) ∧
    (64 : BitVec 7).toNat ≤ 64 := by decide +kernel

theorem test_meets_FinalizeChecksTheLength :
    1024 < (withRegs fun r => { r with chunkLen := 1025 }).regs.chunkLen.toNat ∧
    1 ≤ (oneLeaf 0 cv0).tree.chunkCount.toNat ∧ (oneLeaf 0 cv0).regs.chunkLen = 0 := by decide +kernel

theorem test_meets_FinalizeBuildsTheLeftLeaningTree :
    ∃ (s : State) (leaf : Nat → Cv), s.tree.sp.toNat = popcount64 s.tree.chunkCount ∧
      s.tree.chunkCount ≠ 0 ∧ s.HoldsSubtrees leaf ∧
      leaf s.tree.chunkCount.toNat = cvOf (s.chunkIn s.tree.chunkCount false).last ∧
      s.regs.chunkLen.toNat ≤ 1024 ∧ s.regs.chunkLen ≠ 0 := by
  let tail := cvOf ((oneLeaf 1 cv0).chunkIn 1 false).last
  exact ⟨oneLeaf 1 cv0, fun i => if i = 0 then cv0 else tail, (by decide : 1 = popcount64 1),
    (by decide : (1 : BitVec 64) ≠ 0), oneLeaf_holds 1 fun i => if i = 0 then cv0 else tail, rfl,
    (by decide : (1 : BitVec 11).toNat ≤ 1024), (by decide : (1 : BitVec 11) ≠ 0)⟩

theorem test_meets_FinalizeCanBeRepeated :
    ∃ t u, exec .finalize quiet = .next t ∧ exec .finalize t = .next u := by
  obtain ⟨t, ht⟩ := exec_next .finalize quiet
  obtain ⟨u, hu⟩ := exec_next .finalize t
  exact ⟨t, u, ht, hu⟩

/-- `quiet` with a chunk length. -/
def sized (len : BitVec 11) : State := { quiet with regs := { quiet.regs with chunkLen := len } }

theorem test_sized_inv (len : BitVec 11) : (sized len).Inv :=
  ⟨test_quiet_inv.sp_popcount, rfl, fun _ => rfl, test_quiet_inv.om_blen_le, test_quiet_inv.om_root, rfl,
    test_quiet_inv.busy_clear, test_quiet_inv.err_iff_code, test_quiet_inv.om_mode⟩

/-- COMMIT of a full chunk and FINALIZE of the empty input and of one full chunk. -/
theorem test_meets_OneRootCompressionPerHash :
    ((sized 1024).Inv ∧ (jobs .commit (sized 1024)).length = 16) ∧
    ((sized 1024).regs.chunkLen.toNat ≤ 1024 ∧ (jobs .finalize (sized 1024)).length = 16) ∧
    ((sized 0).Inv ∧ (sized 0).regs.chunkLen.toNat ≤ 1024 ∧ (sized 0).tree.chunkCount = 0 ∧
      (jobs .finalize (sized 0)).length = 1) :=
  ⟨⟨test_sized_inv 1024, by decide +kernel⟩, by decide +kernel, test_sized_inv 0, by decide +kernel⟩

/-- Every clause of OnlyRootFormsWriteTheMaterial, at the lengths where the clauses meet. -/
theorem test_meets_OnlyRootFormsWriteTheMaterial :
    (∃ t, happen .reset quiet = .next t) ∧ (∃ t, exec (.parent true) quiet = .next t) ∧
    (∃ t, (sized 1024).regs.chunkLen.toNat ≤ 1024 ∧ exec (.chunk true) (sized 1024) = .next t) ∧
    (∃ t, 1024 < (sized 1025).regs.chunkLen.toNat ∧ exec (.chunk true) (sized 1025) = .next t) ∧
    (∃ t, (oneLeaf 1 cv0).regs.chunkLen ≠ 0 ∧ exec .finalize (oneLeaf 1 cv0) = .next t) ∧
    (∃ t, (oneLeaf 0 cv0).tree.chunkCount ≠ 0 ∧ (oneLeaf 0 cv0).regs.chunkLen = 0 ∧
      exec .finalize (oneLeaf 0 cv0) = .next t) :=
  ⟨⟨_, rfl⟩, exec_next _ _, ⟨_, by decide +kernel, execChunk_eq _ _⟩,
    ⟨_, by decide +kernel, execChunk_eq _ _⟩, ⟨_, by decide +kernel, execFinalize_eq _⟩,
    ⟨_, by decide +kernel, by decide +kernel, execFinalize_eq _⟩⟩

theorem test_meets_MergesNeverExceedTheStack :
    (0 : BitVec 64).toNat ≠ 2 ^ 64 - 1 ∧ (BitVec.allOnes 64 - 1 : BitVec 64).toNat ≠ 2 ^ 64 - 1 := by decide

/-- The idle state with valid output material. -/
def rooted : State := { quiet with omv := true }

theorem test_meets_OutputRecompressesTheRoot : rooted.omv = true ∧ quiet.omv = false := ⟨rfl, rfl⟩

theorem test_meets_FinalizeLeavesOutputBlockZero : ∃ t u, quiet.Inv ∧ exec .finalize quiet = .next t ∧
    t.status.err = false ∧ quiet.regs.octrLo = 0 ∧ quiet.regs.octrHi = 0 ∧ exec .output t = .next u := by
  have ht := execFinalize_eq quiet
  rw [if_neg (by decide +kernel)] at ht
  obtain ⟨u, hu⟩ := exec_next .output _
  exact ⟨_, u, test_quiet_inv, ht, rfl, rfl, rfl, hu⟩

theorem test_meets_OutputStreamIsTheBlocksInOrder :
    ∃ t, 3 < 4 ∧ rooted.omv = true ∧ exec .output rooted = .next t := by
  obtain ⟨t, ht⟩ := exec_next .output rooted
  exact ⟨t, by decide, rfl, ht⟩

theorem test_rooted_inv : rooted.Inv :=
  ⟨test_quiet_inv.sp_popcount, rfl, fun _ => rfl, test_quiet_inv.om_blen_le, fun _ => by decide +kernel, rfl,
    test_quiet_inv.busy_clear, test_quiet_inv.err_iff_code, fun _ => by decide +kernel⟩

theorem test_meets_EveryHashCompressionCarriesTheMode :
    (∃ j : Job, (Instr.parent false) ≠ .compress ∧ (Instr.parent false) ≠ .output ∧
      j ∈ jobs (.parent false) quiet) ∧
    ∃ j : Job, Instr.output ≠ .compress ∧ rooted.Inv ∧ j ∈ jobs .output rooted :=
  ⟨⟨_, by decide, by decide, List.mem_singleton_self _⟩,
    ⟨_, by decide, test_rooted_inv, List.mem_singleton_self _⟩⟩

/-- The premises of the statements about any command: a next state, ERR and ERRCODE clear. -/
theorem test_meets_commands (i : Instr) : ∃ t, quiet.status.err = false ∧ quiet.status.errCode = .none ∧
    quiet.tree.sp.toNat = popcount64 quiet.tree.chunkCount ∧ exec i quiet = .next t := by
  obtain ⟨t, ht⟩ := exec_next i quiet
  exact ⟨t, rfl, rfl, test_quiet_inv.sp_popcount, ht⟩

/-- OUTPUT with no material, and an illegal word. -/
theorem test_meets_ErrorsChangeOnlyStatus :
    (∃ t, (working 7 []).busy = true ∧ (working 7 []).status.errCode = .none ∧
      happen .engine (working 7 []) = .next t ∧ t.status.errCode ≠ .none) ∧
    ∃ t, (working 8 []).busy = true ∧ (working 8 []).status.errCode = .none ∧
      happen .engine (working 8 []) = .next t ∧ t.status.errCode ≠ .none := by
  have ht := execOutput_eq (working 7 [])
  rw [if_pos (show (working 7 []).omv = false from rfl)] at ht
  exact ⟨⟨_, rfl, rfl, ht, by decide +kernel⟩, ⟨_, rfl, rfl, rfl, by decide +kernel⟩⟩

theorem test_meets_ErrorsAreThoseOfTheTable (i : Instr) :
    legalWord 0x00000101 = false ∧ (∃ t, executeWord 0x00000101 quiet = .next t) ∧
    quiet.status.errCode = .none ∧ ∃ t, executeWord (encode i) quiet = .next t := by
  refine ⟨by decide, ⟨_, rfl⟩, rfl, ?_⟩
  rcases executeWord_cases (encode i) quiet with ⟨j, _, h⟩ | ⟨_, _, h⟩
  · rw [h]; exact exec_next j quiet
  · exact ⟨_, h⟩

/-- Every word of the window falls under exactly one clause of BusWriteActsByOffset. -/
theorem test_write_clauses_part_the_window : ∀ n : Fin 1024,
    let off := 4 * n.val
    let ignored := off = 0x01C ∨ (0x030 ≤ off ∧ off < 0x040) ∨ (0x0C0 ≤ off ∧ off < 0x400) ∨ 0x800 ≤ off
    let dropped := off = 0x000 ∨ (0x00C ≤ off ∧ off < 0x01C) ∨ (0x020 ≤ off ∧ off < 0x030)
      ∨ (0x040 ≤ off ∧ off < 0x0C0) ∨ (0x400 ≤ off ∧ off < 0x800)
    (off = 0x004 ∧ ¬ignored ∧ ¬dropped) ∨ (off = 0x008 ∧ ¬ignored ∧ ¬dropped) ∨
      (off ≠ 0x004 ∧ off ≠ 0x008 ∧ (ignored ↔ ¬dropped)) := by decide +kernel

/-- Each clause of BusWriteActsByOffset and BusReadReturnsTheRegister at the ends of its range. -/
theorem test_meets_bus_clauses :
    Memory.wf quiet.draws quiet.mem = true ∧ quiet.busy = false ∧ (working 1 []).busy = true ∧
    (∀ off ∈ [0x000, 0x004, 0x008, 0x00C, 0x010, 0x014, 0x018, 0x01C, 0x020, 0x024, 0x028, 0x02C, 0x030,
      0x034, 0x038, 0x03C, 0x040, 0x05C, 0x060, 0x07C, 0x080, 0x0BC, 0x0C0, 0x0FC, 0x100, 0x3FC, 0x400,
      0x7FC, 0x800, 0xFFC], off % 4 = 0 ∧ off < 4096) ∧
    (0x05C = 0x040 + 4 * (7 : Fin 8).val ∧ 0x07C = 0x060 + 4 * (7 : Fin 8).val ∧
      0x0BC = 0x080 + 4 * (15 : Fin 16).val ∧ 0x0FC = 0x0C0 + 4 * (15 : Fin 16).val ∧
      0x7FC = 0x400 + 4 * (255 : Fin 256).val) := ⟨rfl, rfl, rfl, by decide, by decide⟩

/-- The idle state with its registers read and written at the offsets where the clauses of
WrittenRegistersReadBack and WritesButIssueAreIdempotent meet. -/
theorem test_meets_writes (v : Word) : ∀ off ∈ [0x000, 0x004, 0x008, 0x00C, 0x018, 0x01C, 0x020, 0x02C,
    0x040, 0x0BC, 0x0C0, 0x3FC, 0x400, 0x7FC, 0xFFC],
    ∃ t u, happen (.write off 4 v) quiet = .next t ∧ happen (.read off 4) quiet = .next u := by
  intro off h
  have hw : wfAccess off 4 = true := by
    revert off; decide
  exact ⟨_, _, busWrite_next hw v quiet, busRead_next hw quiet⟩

theorem test_meets_OnlyWholeAlignedWordsAreAdmitted :
    (4 = 4 ∧ 0xFFC % 4 = 0 ∧ 0xFFC < 4096) ∧ ¬(2 = 4 ∧ 0x000 % 4 = 0 ∧ 0x000 < 4096) ∧
    ¬(4 = 4 ∧ 0x001 % 4 = 0 ∧ 0x001 < 4096) ∧ ¬(4 = 4 ∧ 4096 % 4 = 0 ∧ 4096 < 4096) := by decide

theorem test_meets_IrqFollowsEnableAndDone :
    (∃ t, ({ working 2 [] with irqEn := true } : State).irqEn = true ∧
      ({ working 2 [] with irqEn := true } : State).busy = true ∧
      happen .engine { working 2 [] with irqEn := true } = .next t) ∧ quiet.busy = false ∧
    (2 : Word).getLsbD 1 = true ∧ ∃ t, happen .reset quiet = .next t :=
  ⟨⟨_, rfl, rfl, execInit_eq _⟩, rfl, by decide, _, rfl⟩

theorem test_meets_OverrunIsSticky : ∃ t, (quiet.overrun).status.ovr = true ∧
    happen (.write 0x004 4 8) quiet.overrun = .next t ∧ (8 : Word).getLsbD 3 = true :=
  ⟨_, rfl, busWrite_next (off := 0x004) (size := 4) (by decide) 8 _, by decide⟩

theorem test_meets_ResetGivesTheResetState :
    (⟨false, true, true, 0, 1, true⟩ : PortCycle).rstN = false := rfl

theorem test_meets_ResetIsPlainInit : ∃ t, quiet.regs.mode = 0 ∧ exec .init quiet = .next t :=
  ⟨_, rfl, execInit_eq quiet⟩

theorem test_meets_EveryStepKeepsTheInvariant :
    ∃ t, (working 5 []).Inv ∧ step (working 5 []) = .next t := by
  obtain ⟨t, ht⟩ := exec_next .commit (working 5 [])
  exact ⟨t, test_working_inv 5 [], ht⟩

theorem test_meets_ResultIsTheSameWheneverTheEngineCompletes :
    ∃ u t, (working 2 []).Inv ∧ (working 2 []).busy = true ∧
      (∀ e ∈ [Event.write 0x00C 4 3, Event.read 0x004 4], e.isAccess = true) ∧
      happenAll [.write 0x00C 4 3, .read 0x004 4] (working 2 []) = .next u ∧
      happen .engine (working 2 []) = .next t := by
  obtain ⟨t, ht⟩ := exec_next .init (working 2 [])
  exact ⟨_, t, test_working_inv 2 [], rfl, by decide, rfl, ht⟩

theorem test_meets_PendingCommandsComplete : (working 2 [.read 0x004 4]).busy = true ∧
    ∀ e ∈ (working 2 [.read 0x004 4]).inputs, e.wf = true ∧ e ≠ .reset := ⟨rfl, by decide +kernel⟩

theorem test_meets_NoRunOfExistingAccessesStops :
    ∀ e ∈ (working 2 [.write 0xFFC 4 0, .reset]).inputs, e.wf = true := by decide +kernel

/-- A dropped write and a read, each in the cycle in which INIT completes. -/
theorem test_meets_AccessActsBeforeACompletionInItsCycle :
    (working 2 []).busy = true ∧
    (∃ t, happenAll (⟨true, true, true, 3, 1, true⟩ : PortCycle).events (working 2 []) = .next t) ∧
    (regAt (4 * (3 : BitVec 10).toNat)).ignoresWrites = false ∧
    (∃ t, happenAll (⟨true, true, false, 1, 0, true⟩ : PortCycle).events (working 2 []) = .next t) :=
  ⟨rfl, ⟨_, rfl⟩, by decide, ⟨_, rfl⟩⟩

/-- The last clause of WaitReadsStatusUntilIdle at the ends of its range. -/
theorem test_meets_WaitReadsStatusUntilIdle :
    let d : Script.Driver := { state := working 2 [], left := 3, latency := fun _ => 0 }
    d.state.busy = true ∧ (0 < 1 ∧ 1 ≤ d.left) ∧ 0 < 3 ∧ 3 ≤ d.left := ⟨rfl, by decide, by decide, by decide⟩

theorem test_meets_InternalStateChangesOnlyAtCompletion :
    (∃ t, happen (.write 0x00C 4 1) quiet = .next t) ∧ quiet.pending ≠ some 0x00000002 ∧
    quiet.pending ≠ some 0x00000005 ∧ quiet.busy = false ∧ ∃ t, happen .engine (working 1 []) = .next t := by
  obtain ⟨t, ht⟩ := exec_next .compress (working 1 [])
  exact ⟨⟨_, busWrite_next (off := 0x00C) (size := 4) (by decide) 1 quiet⟩, by decide +kernel, by decide +kernel, rfl, t, ht⟩

end Sys2Proof.Tests
end

section
/-! PROOFS. The registers, the bus and the internal state (10_state.md, 20_memory.md R64). -/

namespace Sys2Proof.Machine

/-! ## The word STATUS reads as (10_state.md R25) -/

/-- The one-bit fields of STATUS, and the reserved bit between SP and LMODE. -/
theorem statusWord_bits (s : State) :
    s.statusWord.getLsbD 0 = s.busy ∧ s.statusWord.getLsbD 1 = s.status.done ∧
    s.statusWord.getLsbD 2 = s.status.err ∧ s.statusWord.getLsbD 3 = s.status.ovr ∧
    s.statusWord.getLsbD 8 = s.omv ∧ s.statusWord.getLsbD 23 = false := by
  simp only [State.statusWord, BitVec.getLsbD_append, BitVec.getLsbD_ofBool]
  exact ⟨rfl, rfl, rfl, rfl, rfl, rfl⟩

/-- The wider fields of STATUS, and the reserved ranges. -/
theorem statusWord_fields (s : State) :
    s.statusWord.extractLsb' 4 4 = s.status.errCode.bits ∧ s.statusWord.extractLsb' 9 7 = 0 ∧
    s.statusWord.extractLsb' 16 7 = s.tree.sp ∧ s.statusWord.extractLsb' 24 2 = s.tree.lmode ∧
    s.statusWord.extractLsb' 26 6 = 0 := by
  simp (disch := decide) only [State.statusWord, BitVec.extractLsb'_append_eq_of_le,
    BitVec.extractLsb'_append_eq_of_add_le]
  exact ⟨BitVec.extractLsb'_eq_self, rfl, BitVec.extractLsb'_eq_self, BitVec.extractLsb'_eq_self, rfl⟩

/-- Settles O40, field by field. -/
theorem statusWordHasItsFields : Obligations.StatusWordHasItsFields := by
  intro s
  obtain ⟨busy, done, err, ovr, omv, reserved23⟩ := statusWord_bits s
  obtain ⟨code, reserved9, sp, lmode, reserved26⟩ := statusWord_fields s
  exact ⟨busy, done, err, ovr, code, omv, reserved9, sp, reserved23, lmode, reserved26⟩

/-! ## Which register stands where (10_state.md R23) -/

/-- Past the window every place counts as reserved. -/
theorem regAt_outside {off : Nat} (outside : 4096 ≤ off) : regAt off = .reserved off := by
  simp (disch := omega) only [regAt, if_neg, dif_neg]

/-- The register at an aligned offset stands at that offset, inside the window or past it. -/
theorem offset_regAt_of_aligned {off : Nat} (aligned : off % 4 = 0) : (regAt off).offset = off := by
  rcases Nat.lt_or_ge off 4096 with inside | outside
  · exact offset_regAt aligned inside
  · rw [regAt_outside outside, Reg.offset]

theorem regAt_ne_of_offset_ne {off : Nat} {r : Reg} (aligned : off % 4 = 0) (h : off ≠ r.offset) :
    regAt off ≠ r := by
  rintro rfl
  exact h (offset_regAt_of_aligned aligned).symm

/-- The input registers and the buffer words: what a write while idle stores to
(20_memory.md R64). -/
def Reg.isStored : Reg → Bool
  | .mode | .chunkLen | .blockLen | .flags | .ctrLo | .ctrHi | .octrLo | .octrHi
  | .key _ | .cv _ | .m _ | .buf _ => true
  | .cmd | .status | .ctrl | .countLo | .countHi | .out _ | .reserved _ => false

theorem regAt_offset_of_isStored {r : Reg} (stored : r.isStored = true) : regAt r.offset = r := by
  cases r with
  | mode | chunkLen | blockLen | flags | ctrLo | ctrHi | octrLo | octrHi => rfl
  | key i => exact regAt_key i
  | cv i => exact regAt_cv i
  | m i => exact regAt_m i
  | buf w => exact regAt_buf w
  | cmd | status | ctrl | countLo | countHi | out | reserved => cases stored

theorem isStored_iff {r : Reg} : r.isStored = true ↔
    r.ignoresWrites = false ∧ r ≠ .cmd ∧ r ≠ .status ∧ r ≠ .ctrl := by
  cases r <;> simp [Reg.isStored, Reg.ignoresWrites]

/-- The offsets of CMD, the input registers and the buffer: neither STATUS nor CTRL, and not read-only
or reserved. -/
theorem writable_regAt {off : Nat} (aligned : off % 4 = 0) (inside : off < 4096)
    (h : off = 0x000 ∨ (0x00C ≤ off ∧ off < 0x01C) ∨ (0x020 ≤ off ∧ off < 0x030) ∨
      (0x040 ≤ off ∧ off < 0x0C0) ∨ (0x400 ≤ off ∧ off < 0x800)) :
    (regAt off).ignoresWrites = false ∧ regAt off ≠ .status ∧ regAt off ≠ .ctrl := by
  refine ⟨?_, regAt_ne_of_offset_ne aligned ?_, regAt_ne_of_offset_ne aligned ?_⟩
  · rw [Bool.eq_false_iff, Ne, ignoresWrites_regAt aligned inside]
    omega
  · simp only [Reg.offset]
    omega
  · simp only [Reg.offset]
    omega

/-- The offsets of the input registers and the buffer words. -/
theorem isStored_regAt {off : Nat} (aligned : off % 4 = 0) (inside : off < 4096)
    (h : (0x00C ≤ off ∧ off < 0x01C) ∨ (0x020 ≤ off ∧ off < 0x030) ∨ (0x040 ≤ off ∧ off < 0x0C0) ∨
      (0x400 ≤ off ∧ off < 0x800)) : (regAt off).isStored = true := by
  obtain ⟨writable, notStatus, notCtrl⟩ := writable_regAt aligned inside (.inr h)
  have notCmd : regAt off ≠ .cmd := by
    apply regAt_ne_of_offset_ne aligned
    simp only [Reg.offset]
    omega
  exact isStored_iff.2 ⟨writable, notCmd, notStatus, notCtrl⟩

/-! ## What a bus write does, by register (20_memory.md R64) -/

theorem writeReg_isStored {s : State} {r : Reg} (stored : r.isStored = true) (v : Word)
    (idle : s.busy = false) : s.writeReg r v = s.storeReg r v := by
  obtain ⟨writable, notCmd, notStatus, notCtrl⟩ := isStored_iff.1 stored
  exact writeReg_idle v writable notStatus notCtrl notCmd idle

theorem writeStatus_eq (s : State) (v : Word) : s.writeStatus v =
    { s with
      status :=
        { done := s.status.done && !v.getLsbD 1
          err := s.status.err && !v.getLsbD 2
          errCode := if v.getLsbD 2 then .none else s.status.errCode
          ovr := s.status.ovr && !v.getLsbD 3 } } := by
  have ite_false (b x : Bool) : (if b then false else x) = (x && !b) := by cases b <;> simp
  simp only [State.writeStatus, ite_false]

section
variable {s : State} {off : Nat} (aligned : off % 4 = 0) (inside : off < 4096) (v : Word)
include aligned inside

theorem happen_write_eq : happen (.write off 4 v) s = .next (s.writeReg (regAt off) v) :=
  busWrite_next (by simp [wfAccess, aligned, inside]) v s

/-- While idle a word written to an input register or the buffer is stored. -/
theorem happen_write_store {r : Reg} (stored : r.isStored = true) (hoff : off = r.offset)
    (idle : s.busy = false) : happen (.write off 4 v) s = .next (s.storeReg r v) := by
  rw [happen_write_eq aligned inside, hoff, regAt_offset_of_isStored stored,
    writeReg_isStored stored v idle]

/-- A write to a read-only or reserved offset has no effect. -/
theorem happen_write_ignored
    (h : off = 0x01C ∨ (0x030 ≤ off ∧ off < 0x040) ∨ (0x0C0 ≤ off ∧ off < 0x400) ∨ 0x800 ≤ off) :
    happen (.write off 4 v) s = .next s := by
  rw [happen_write_eq aligned inside,
    writeReg_ignored v ((ignoresWrites_regAt aligned inside).2 h)]

/-- While a command is pending a write to CMD, an input register or the buffer is dropped. -/
theorem happen_write_dropped (busy : s.busy = true)
    (h : off = 0x000 ∨ (0x00C ≤ off ∧ off < 0x01C) ∨ (0x020 ≤ off ∧ off < 0x030) ∨
      (0x040 ≤ off ∧ off < 0x0C0) ∨ (0x400 ≤ off ∧ off < 0x800)) :
    happen (.write off 4 v) s = .next s.overrun := by
  obtain ⟨writable, notStatus, notCtrl⟩ := writable_regAt aligned inside h
  rw [happen_write_eq aligned inside, writeReg_busy v writable notStatus notCtrl busy]

end

/-- Settles O41: each clause is the write rule of the registers it names. -/
theorem busWriteActsByOffset : Obligations.BusWriteActsByOffset := by
  intro s off v aligned inside canonical
  refine ⟨?status, ?ctrl, happen_write_ignored aligned inside v, happen_write_dropped aligned inside v,
    fun idle => ?idle⟩
  case status =>
    rintro rfl
    rw [happen_write_eq aligned inside, ← writeStatus_eq]
    rfl
  case ctrl =>
    rintro rfl
    exact happen_write_eq aligned inside v
  case idle =>
    have store {r : Reg} (stored : r.isStored = true) (hoff : off = r.offset) :
        happen (.write off 4 v) s = .next (s.storeReg r v) :=
      happen_write_store aligned inside v stored hoff idle
    refine ⟨?cmd, store (r := .mode) rfl, store (r := .chunkLen) rfl, store (r := .blockLen) rfl,
      store (r := .flags) rfl, store (r := .ctrLo) rfl, store (r := .ctrHi) rfl,
      store (r := .octrLo) rfl, store (r := .octrHi) rfl, fun i => store (r := .key i) rfl,
      fun i => store (r := .cv i) rfl, fun i => store (r := .m i) rfl, fun w hoff => ?buf⟩
    case cmd =>
      rintro rfl
      rw [happen_write_eq aligned inside]
      exact congrArg _ (writeReg_cmd v idle)
    case buf =>
      obtain ⟨mem, hmem⟩ := s.setBufWord_eq w v
      refine ⟨mem, hmem ▸ store (r := .buf w) rfl hoff, fun k => ?_⟩
      rw [← hmem, State.buf_setBufWord (Memory.wf_rising canonical) le_rfl]
      rfl

/-! ## Reading after writing (10_state.md R39) -/

/-- The low `n` bits of a word, as a word, are the word under the mask of `n` ones. -/
theorem setWidth_extractLsb'_eq_and (v : Word) (n : Nat) :
    (v.extractLsb' 0 n).setWidth 32 = v &&& BitVec.ofNat 32 (2 ^ n - 1) := by
  apply BitVec.eq_of_getLsbD_eq
  intro i hi
  simp only [BitVec.getLsbD_setWidth, BitVec.getLsbD_extractLsb', BitVec.getLsbD_and, BitVec.getLsbD_ofNat,
    Nat.testBit_two_pow_sub_one, hi, decide_true, Bool.true_and, Nat.zero_add, Bool.and_comm]

/-- The defined bits of a stored register (10_state.md R39). -/
def Reg.definedBits : Reg → Word
  | .mode => 0x3
  | .chunkLen => 0x7FF
  | .blockLen => 0x7F
  | .flags => 0xFF
  | _ => 0xFFFFFFFF

theorem definedBits_eq {r : Reg} (stored : r.isStored = true) : r.definedBits =
    if r.offset = 0x00C then 0x3 else if r.offset = 0x010 then 0x7FF else if r.offset = 0x014 then 0x7F
      else if r.offset = 0x018 then 0xFF else 0xFFFFFFFF := by
  cases r with
  | mode | chunkLen | blockLen | flags | ctrLo | ctrHi | octrLo | octrHi => rfl
  | key | cv | m | buf => grind [Reg.definedBits, Reg.offset]
  | cmd | status | ctrl | countLo | countHi | out | reserved => cases stored

section
variable {s : State} (canonical : Memory.wf s.draws s.mem = true)
include canonical

/-- A stored register reads back with its defined bits. -/
theorem readReg_storeReg_same {r : Reg} (stored : r.isStored = true) (v : Word) :
    (s.storeReg r v).readReg r = v &&& r.definedBits := by
  have whole : v &&& 0xFFFFFFFF = v := BitVec.and_allOnes
  cases r with
  | mode => exact setWidth_extractLsb'_eq_and v 2
  | chunkLen => exact setWidth_extractLsb'_eq_and v 11
  | blockLen => exact setWidth_extractLsb'_eq_and v 7
  | flags => exact setWidth_extractLsb'_eq_and v 8
  | ctrLo | ctrHi | octrLo | octrHi => exact whole.symm
  | key i | cv i | m i => exact (Vector.getElem_set_self i.isLt).trans whole.symm
  | buf w => exact ((State.bufWord_setBufWord canonical w w v).trans (if_pos rfl)).trans whole.symm
  | cmd | status | ctrl | countLo | countHi | out | reserved => cases stored

/-- A store leaves what every other register reads as. -/
theorem readReg_storeReg_other {r r' : Reg} (h : r' ≠ r) (v : Word) :
    (s.storeReg r v).readReg r' = s.readReg r' := by
  cases r' with
  | cmd | status | ctrl | countLo | countHi | out | reserved =>
    obtain ⟨regs, mem, hstore⟩ := s.storeReg_eq r v
    rw [hstore]
    rfl
  | mode | chunkLen | blockLen | flags | ctrLo | ctrHi | octrLo | octrHi =>
    cases r <;> simp_all [State.storeReg, State.readReg, State.setBufWord]
  | key j =>
    cases r with
    | key i => exact Vector.getElem_set_ne i.isLt j.isLt fun e => h (congrArg Reg.key (Fin.ext e.symm))
    | _ => rfl
  | cv j =>
    cases r with
    | cv i => exact Vector.getElem_set_ne i.isLt j.isLt fun e => h (congrArg Reg.cv (Fin.ext e.symm))
    | _ => rfl
  | m j =>
    cases r with
    | m i => exact Vector.getElem_set_ne i.isLt j.isLt fun e => h (congrArg Reg.m (Fin.ext e.symm))
    | _ => rfl
  | buf j =>
    cases r with
    | buf w =>
      exact (State.bufWord_setBufWord canonical w j v).trans
        (if_neg fun e => h (congrArg Reg.buf (Fin.ext e)))
    | _ => rfl

end

/-- Settles O43: the store is seen at its own register and at no other. -/
theorem writtenRegistersReadBack : Obligations.WrittenRegistersReadBack := by
  intro s t off v idle canonical aligned range write
  have inside : off < 4096 := by omega
  have stored : (regAt off).isStored = true := isStored_regAt aligned inside range
  have hoff : off = (regAt off).offset := (offset_regAt_of_aligned aligned).symm
  rw [happen_write_store aligned inside v stored hoff idle] at write
  cases write
  refine ⟨?_, fun off' aligned' different => ?_⟩
  · rw [readReg_storeReg_same canonical stored, definedBits_eq stored, ← hoff]
  · exact readReg_storeReg_other canonical
      (regAt_ne_of_offset_ne aligned' fun e => different (e.trans hoff.symm)) v

/-! ## When the internal state changes (10_state.md R40, R41, R66) -/

/-- A bus write leaves the tree, the output material and OUT. -/
theorem writeReg_internal (s : State) (r : Reg) (v : Word) :
    (s.writeReg r v).tree = s.tree ∧ (s.writeReg r v).om = s.om ∧ (s.writeReg r v).omv = s.omv ∧
      (s.writeReg r v).out = s.out := by
  obtain ⟨regs, mem, hstore⟩ := s.storeReg_eq r v
  rcases s.writeReg_cases r v with h | ⟨_, h⟩ | ⟨_, h⟩ | ⟨_, h⟩ | ⟨_, _, h⟩ | ⟨_, h⟩ <;>
    simp [h, hstore]

/-- An event that is no reset leaves the tree, the output material and OUT, or it is the completion of
the pending command. -/
theorem happen_internal {e : Event} {s t : State} (noReset : e ≠ .reset) (h : happen e s = .next t) :
    (t.tree = s.tree ∧ t.om = s.om ∧ t.omv = s.omv ∧ t.out = s.out) ∨
    ∃ c, e = .engine ∧ s.pending = some c ∧ executeWord c s = .next t := by
  rcases happen_cases h with ⟨_, _, _, _, rfl⟩ | ⟨off, _, v, _, _, rfl⟩ | ⟨_, _, rfl⟩ | completion |
    ⟨reset, _⟩
  · exact .inl ⟨rfl, rfl, rfl, rfl⟩
  · exact .inl (writeReg_internal s (regAt off) v)
  · exact .inl ⟨rfl, rfl, rfl, rfl⟩
  · exact .inr completion
  · exact absurd reset noReset

theorem plainCommand_eq_ok {i j : Instr} {r : Bool} (h : plainCommand i r = .ok j) :
    r = false ∧ j = i := by
  cases r
  · exact ⟨rfl, (Except.ok.inj h).symm⟩
  · cases h

/-- The decoder reads a command from no word but the command's own. -/
theorem eq_encode_of_decode {w : Word} {i : Instr} (h : decode w = .ok i) : w = encode i := by
  unfold decode at h
  split at h
  · cases h
  next reserved =>
    rw [not_or, not_not, not_not] at reserved
    obtain ⟨low, high⟩ := reserved
    have fields := eq_commandWord low high
    have op {n : Nat} (hn : (opField w).toNat = n) : opField w = BitVec.ofNat 4 n := by
      rw [← hn, BitVec.ofNat_toNat, BitVec.setWidth_eq]
    split at h
    case h_3 hop | h_4 hop =>
      cases h
      rw [fields, op hop, rField_commandWord]
      rfl
    case h_8 => cases h
    all_goals
      next hop =>
        obtain ⟨hr, rfl⟩ := plainCommand_eq_ok h
        rw [fields, op hop, hr]
        rfl

/-- The only changes of the tree engine's state by a completion: INIT's word starts a hash, and
COMMIT's pushes. -/
theorem executeWord_tree {c : Word} {s t : State} (h : executeWord c s = .next t) :
    t.tree = s.tree ∨ c = encode .init ∨
    (c = encode .commit ∧ ∃ acc sp, t.tree = s.tree.push acc sp) := by
  rcases executeWord_cases c s with ⟨i, hi, hexec⟩ | ⟨_, _, hillegal⟩
  · rw [hexec] at h
    have word := eq_encode_of_decode hi
    rcases exec_tree h with same | ⟨rfl, _⟩ | ⟨rfl, _, _, push⟩
    · exact .inl same
    · exact .inr (.inl word)
    · exact .inr (.inr ⟨word, _, _, push⟩)
  · rw [hillegal] at h
    cases h
    exact .inl rfl

/-- Settles O56: what changes the internal state is a completion, and what it does to the tree depends on
the pending word. -/
theorem internalStateChangesOnlyAtCompletion : Obligations.InternalStateChangesOnlyAtCompletion := by
  intro e s t noReset h
  rcases happen_internal noReset h with ⟨tree, rest⟩ | ⟨c, rfl, pending, completion⟩
  · rw [tree]
    exact ⟨fun _ => ⟨rfl, rest⟩, fun _ => ⟨rfl, rfl, rfl⟩, fun _ _ => ⟨rfl, rfl⟩⟩
  rw [pending]
  refine ⟨fun noCompletion => ?_, fun noInit => ?_, fun noInit noCommit => ?_⟩
  · simp [s.busy_of_pending pending] at noCompletion
  · rcases executeWord_tree completion with same | rfl | ⟨_, acc, sp, push⟩
    · rw [same]; exact ⟨rfl, rfl, rfl⟩
    · exact absurd rfl noInit
    · rw [push]; exact ⟨rfl, rfl, rfl⟩
  · rcases executeWord_tree completion with same | rfl | ⟨rfl, _⟩
    · rw [same]; exact ⟨rfl, rfl⟩
    · exact absurd rfl noInit
    · exact absurd rfl noCommit

end Sys2Proof.Machine
end

section
/-! PROOFS. Bus accesses, and what they leave of a pending command (20_memory.md). -/

namespace Sys2Proof.Machine

/-! ## Which accesses exist (20_memory.md R62) -/

theorem wfAccess_iff {off size : Nat} :
    wfAccess off size = true ↔ size = 4 ∧ off % 4 = 0 ∧ off < 4096 := by
  simp [wfAccess, and_assoc]

/-- An access that does not exist is refused, as a read and as a write. -/
theorem happen_refused {off size : Nat} (missing : ¬ wfAccess off size = true) (s : State) (v : Word) :
    ∃ r, happen (.read off size) s = .refused r ∧ happen (.write off size v) s = .refused r := by
  obtain ⟨r, refusal⟩ := Option.ne_none_iff_exists'.1 (mt accessRefusal_eq_none.1 missing)
  exact ⟨r, by simp [happen, busRead, refusal], by simp [happen, busWrite, refusal]⟩

theorem wfAccess_of_read {off size : Nat} {s t : State} (h : happen (.read off size) s = .next t) :
    wfAccess off size = true := by
  by_contra missing
  obtain ⟨r, read, _⟩ := happen_refused missing s 0
  rw [read] at h
  cases h

theorem wfAccess_of_write {off size : Nat} {v : Word} {s t : State}
    (h : happen (.write off size v) s = .next t) : wfAccess off size = true := by
  by_contra missing
  obtain ⟨r, _, write⟩ := happen_refused missing s v
  rw [write] at h
  cases h

/-- Settles O44: an access that exists answers a next state, and any other is refused. -/
theorem onlyWholeAlignedWordsAreAdmitted : Obligations.OnlyWholeAlignedWordsAreAdmitted := by
  intro s off size v
  rw [← wfAccess_iff]
  refine ⟨fun admitted => ⟨⟨_, busRead_next admitted s⟩, _, busWrite_next admitted v s⟩,
    fun missing => ?_⟩
  obtain ⟨r, read, write⟩ := happen_refused missing s v
  exact ⟨⟨r, read⟩, r, write⟩

/-! ## What a bus read answers (20_memory.md R65) -/

/-- What the places without a value read as (10_state.md R24, R38). -/
theorem readReg_regAt_zero {off : Nat} (aligned : off % 4 = 0) (inside : off < 4096) (s : State)
    (h : off = 0x000 ∨ off = 0x01C ∨ off = 0x038 ∨ off = 0x03C ∨ (0x100 ≤ off ∧ off < 0x400) ∨
      0x800 ≤ off) : s.readReg (regAt off) = 0 := by
  rcases h with rfl | reserved
  · rfl
  · rw [regAt_reserved aligned inside reserved]
    rfl

/-- Settles O42: each clause is what the register at its offset reads as. -/
theorem busReadReturnsTheRegister : Obligations.BusReadReturnsTheRegister := by
  intro s off aligned inside
  have reads {r : Reg} (place : regAt r.offset = r) (hoff : off = r.offset) :
      s.readReg (regAt off) = s.readReg r := by
    rw [hoff, place]
  refine ⟨s.readReg (regAt off), busRead_next (wfAccess_iff.2 ⟨rfl, aligned, inside⟩) s,
    readReg_regAt_zero aligned inside s, reads (r := .status) rfl, fun hoff => ?ctrl,
    reads (r := .mode) rfl, reads (r := .chunkLen) rfl, reads (r := .blockLen) rfl,
    reads (r := .flags) rfl, reads (r := .ctrLo) rfl, reads (r := .ctrHi) rfl,
    reads (r := .octrLo) rfl, reads (r := .octrHi) rfl, reads (r := .countLo) rfl,
    reads (r := .countHi) rfl, fun i => reads (r := .key i) (regAt_key i),
    fun i => reads (r := .cv i) (regAt_cv i), fun i => reads (r := .m i) (regAt_m i),
    fun i => reads (r := .out i) (regAt_out i), fun w hoff k hk => ?buf⟩
  case ctrl =>
    rw [reads (r := .ctrl) rfl hoff, State.readReg]
    cases s.irqEn <;> rfl
  case buf =>
    rw [reads (r := .buf w) (regAt_buf w) hoff]
    exact byteOf_le32 s.buf w hk

/-! ## Accesses done twice (20_memory.md R73) -/

/-- The read data of the port is no register. -/
theorem readReg_rdata (s : State) (r : Reg) (v : Word) :
    ({ s with rdata := v } : State).readReg r = s.readReg r := by
  cases r <;> rfl

theorem writeStatus_writeStatus (s : State) (v : Word) :
    (s.writeStatus v).writeStatus v = s.writeStatus v := by
  rw [writeStatus_eq s, writeStatus_eq]
  cases v.getLsbD 2 <;> simp

/-- In a canonical memory, writing to the buffer what is read there changes nothing. -/
theorem State.setBuf_of_buf_eq {s : State} (canonical : Memory.wf s.draws s.mem = true) {k : Nat}
    (hk : k < bufBytes) {v : Byte} (h : s.buf k = v) : s.setBuf k v = s := by
  have written := State.setBuf_wf canonical hk v
  have mem : (s.setBuf k v).mem = s.mem := by
    refine Memory.ext_of_read (d := s.draws) (Memory.wf_rising written) (Memory.wf_rising canonical)
      (fun c hc => ((Memory.wf_iff.1 written).2 c hc).2)
      (fun c hc => ((Memory.wf_iff.1 canonical).2 c hc).2) fun a => ?_
    by_cases ha : a = bufBase + k
    · rw [ha, State.setBuf_mem, Memory.read_write_same (Memory.wf_rising canonical)]
      exact h.symm
    · exact Memory.read_write_other _ _ _ ha
  calc s.setBuf k v = { s with mem := (s.setBuf k v).mem } := rfl
    _ = s := by rw [mem]

theorem State.setBufWord_of_buf_eq {s : State} (canonical : Memory.wf s.draws s.mem = true) {w : Nat}
    (hw : w < 256) {v : Word} (h : ∀ k < 4, s.buf (4 * w + k) = byteOf v k) :
    s.setBufWord w v = s := by
  have byte (k : Nat) (hk : k < 4) : s.setBuf (4 * w + k) (byteOf v k) = s :=
    State.setBuf_of_buf_eq canonical (by simp only [bufBytes]; omega) (h k hk)
  unfold State.setBufWord
  rw [show s.setBuf (4 * w) (byteOf v 0) = s from byte 0 (by decide), byte 1 (by decide),
    byte 2 (by decide), byte 3 (by decide)]

theorem State.setBufWord_setBufWord {s : State} (canonical : Memory.wf s.draws s.mem = true) {w : Nat}
    (hw : w < 256) (v : Word) : (s.setBufWord w v).setBufWord w v = s.setBufWord w v := by
  refine State.setBufWord_of_buf_eq (State.setBufWord_wf canonical hw v) hw fun k hk => ?_
  rw [State.buf_setBufWord (Memory.wf_rising canonical) le_rfl, if_pos (by omega),
    show (4 * w + k) % 4 = k by omega]

/-- A store done twice is the store. -/
theorem storeReg_storeReg {s : State} (canonical : Memory.wf s.draws s.mem = true) (r : Reg)
    (v : Word) : (s.storeReg r v).storeReg r v = s.storeReg r v := by
  cases r with
  | key i | cv i | m i => simp [State.storeReg]
  | buf w => exact State.setBufWord_setBufWord canonical w.isLt v
  | _ => rfl

/-- While idle, a write to any register but CMD done twice is the write. -/
theorem writeReg_writeReg {s : State} (canonical : Memory.wf s.draws s.mem = true)
    (idle : s.busy = false) {r : Reg} (notCmd : r ≠ .cmd) (v : Word) :
    (s.writeReg r v).writeReg r v = s.writeReg r v := by
  by_cases status : r = .status
  · rw [status]
    exact writeStatus_writeStatus s v
  by_cases ctrl : r = .ctrl
  · rw [ctrl]
    rfl
  by_cases ignored : r.ignoresWrites = true
  · rw [writeReg_ignored v ignored, writeReg_ignored v ignored]
  · have stored : r.isStored = true :=
      isStored_iff.2 ⟨by simpa using ignored, notCmd, status, ctrl⟩
    have idle' : (s.storeReg r v).busy = false := by
      obtain ⟨regs, mem, store⟩ := s.storeReg_eq r v
      rw [store]
      exact idle
    rw [writeReg_isStored stored v idle, writeReg_isStored stored v idle',
      storeReg_storeReg canonical]

/-- A command word written while idle is issued; written again it is dropped and sets OVR. -/
theorem happen_issue_twice {s t : State} {v : Word} (idle : s.busy = false)
    (h : happen (.write 0x000 4 v) s = .next t) :
    t = s.issue v ∧ happen (.write 0x000 4 v) t = .next t.overrun := by
  have issued : t = s.issue v := by
    rw [happen_write_eq (by decide) (by decide)] at h
    cases h
    exact writeReg_cmd v idle
  have busy : t.busy = true := by
    rw [issued]
    rfl
  exact ⟨issued, happen_write_dropped (by decide) (by decide) v busy (.inl rfl)⟩

/-- Settles O45: every access but an issue is idempotent by the rule of its register, and INIT issued
twice right after reset shows that an issue is not. -/
theorem writesButIssueAreIdempotent : Obligations.WritesButIssueAreIdempotent := by
  refine ⟨?issue, fun s t off v canonical => ⟨fun read => ?read, fun status write => ?status,
    fun idle notCmd write => ?idle, fun idle issue => (happen_issue_twice idle issue).2⟩⟩
  case issue =>
    have first : happen (.write 0x000 4 (encode .init)) .reset = .next (.issue .reset (encode .init)) :=
      happen_write_eq (by decide) (by decide) _
    obtain ⟨_, second⟩ := happen_issue_twice rfl first
    refine ⟨_, _, _, rfl, first, rfl, fun same => ?_⟩
    rw [second] at same
    injection same with same
    have ovr : true = false := congrArg (fun t : State => t.status.ovr) same
    cases ovr
  case read =>
    have admitted := wfAccess_of_read read
    rw [happen, busRead_next admitted] at read ⊢
    cases read
    simp only [readReg_rdata]
  case status =>
    subst status
    rw [happen_write_eq (by decide) (by decide)] at write ⊢
    cases write
    exact congrArg _ (writeStatus_writeStatus s v)
  case idle =>
    obtain ⟨_, aligned, inside⟩ := wfAccess_iff.1 (wfAccess_of_write write)
    rw [happen_write_eq aligned inside] at write ⊢
    cases write
    rw [writeReg_writeReg canonical idle (regAt_ne_of_offset_ne aligned notCmd)]

/-! ## Accesses while a command is pending (20_memory.md R67) -/

/-- The state with the three things changed that a host access can change while a command is
pending. -/
def State.withHostSide (s : State) (ovr irqEn : Bool) (rdata : Word) : State :=
  { s with status := { s.status with ovr := ovr }, irqEn := irqEn, rdata := rdata }

/-- A command is pending, and STATUS is as its issue left it but for OVR (30_encoding.md R83). -/
structure State.Issued (s : State) : Prop where
  busy : s.busy = true
  done : s.status.done = false
  err : s.status.err = false
  errCode : s.status.errCode = .none

theorem State.Inv.issued {s : State} (inv : s.Inv) (busy : s.busy = true) : s.Issued := by
  obtain ⟨done, err, errCode⟩ := inv.busy_clear busy
  exact ⟨busy, done, err, errCode⟩

theorem State.Issued.withHostSide {s : State} (issued : s.Issued) (ovr irqEn : Bool) (rdata : Word) :
    (s.withHostSide ovr irqEn rdata).Issued := by
  obtain ⟨busy, done, err, errCode⟩ := issued
  exact ⟨busy, done, err, errCode⟩

theorem State.Issued.writeStatus_eq_withHostSide {s : State} (issued : s.Issued) (v : Word) :
    s.writeStatus v = s.withHostSide (s.status.ovr && !v.getLsbD 3) s.irqEn s.rdata := by
  rw [writeStatus_eq]
  simp [State.withHostSide, issued.done, issued.err, issued.errCode]

/-- While a command is pending an access changes OVR, IRQ_EN and the read data at most. -/
theorem State.Issued.happen_access {s t : State} (issued : s.Issued) {e : Event}
    (access : e.isAccess = true) (h : happen e s = .next t) :
    ∃ ovr irqEn rdata, t = s.withHostSide ovr irqEn rdata := by
  rcases happen_cases h with ⟨off, _, _, _, rfl⟩ | ⟨off, _, v, _, _, rfl⟩ | ⟨rfl, _⟩ | ⟨_, rfl, _⟩ |
    ⟨rfl, _⟩
  · exact ⟨s.status.ovr, s.irqEn, s.readReg (regAt off), rfl⟩
  · have notIdle : s.busy ≠ false := by simp [issued.busy]
    rcases s.writeReg_cases (regAt off) v with same | ⟨_, status⟩ | ⟨_, ctrl⟩ | ⟨_, dropped⟩ |
      ⟨idle, _⟩ | ⟨idle, _⟩
    · exact ⟨s.status.ovr, s.irqEn, s.rdata, same⟩
    · exact ⟨_, _, _, status.trans (issued.writeStatus_eq_withHostSide v)⟩
    · exact ⟨s.status.ovr, v.getLsbD 0, s.rdata, ctrl⟩
    · exact ⟨true, s.irqEn, s.rdata, dropped⟩
    · exact absurd idle notIdle
    · exact absurd idle notIdle
  all_goals cases access

/-- Any number of accesses change no more than one does. -/
theorem State.Issued.happenAll_accesses {s u : State} (issued : s.Issued) {accesses : List Event}
    (access : ∀ e ∈ accesses, e.isAccess = true) (h : happenAll accesses s = .next u) :
    ∃ ovr irqEn rdata, u = s.withHostSide ovr irqEn rdata := by
  induction accesses generalizing s with
  | nil =>
    cases h
    exact ⟨u.status.ovr, u.irqEn, u.rdata, rfl⟩
  | cons e rest ih =>
    obtain ⟨_, first, others⟩ := happenAll_cons h
    obtain ⟨ovr, irqEn, rdata, rfl⟩ :=
      issued.happen_access (access e (List.mem_cons_self ..)) first
    obtain ⟨ovr', irqEn', rdata', rfl⟩ := ih (issued.withHostSide ovr irqEn rdata)
      (fun e he => access e (List.mem_cons_of_mem _ he)) others
    exact ⟨ovr', irqEn', rdata', rfl⟩

section
variable (s : State) (ovr irqEn : Bool) (rdata : Word)

theorem complete_withHostSide (code : ErrCode) :
    (s.withHostSide ovr irqEn rdata).complete code = (s.complete code).withHostSide ovr irqEn rdata := by
  cases code <;> rfl

/-- The host's side put under a check that a command makes. -/
theorem ite_withHostSide (p : Prop) [Decidable p] (a b : State) :
    (if p then a else b).withHostSide ovr irqEn rdata =
      if p then a.withHostSide ovr irqEn rdata else b.withHostSide ovr irqEn rdata :=
  apply_ite (State.withHostSide · ovr irqEn rdata) p a b

variable {s}

/-- A command does the same whatever stands in OVR, IRQ_EN and the read data, and leaves them. Its
checks and its results read the registers, the buffer, the tree and the output material only. -/
theorem exec_withHostSide {t : State} {i : Instr} (h : exec i s = .next t) :
    exec i (s.withHostSide ovr irqEn rdata) = .next (t.withHostSide ovr irqEn rdata) := by
  cases i with
  | compress =>
    rw [exec, execCompress_eq] at h ⊢
    cases h
    rw [ite_withHostSide]
    rfl
  | init => cases h; rfl
  | chunk root =>
    rw [exec, execChunk_eq] at h ⊢
    cases h
    rw [ite_withHostSide]
    cases root <;> rfl
  | parent root => cases h; cases root <;> rfl
  | commit =>
    have fold : (s.withHostSide ovr irqEn rdata).commitFold = s.commitFold :=
      State.commitFold_congr rfl rfl rfl
    rw [exec, execCommit_eq] at h ⊢
    cases h
    rw [ite_withHostSide, ite_withHostSide, fold]
    rfl
  | finalize =>
    have material : (s.withHostSide ovr irqEn rdata).rootMaterial = s.rootMaterial :=
      State.rootMaterial_congr rfl rfl rfl
    rw [exec, execFinalize_eq] at h ⊢
    cases h
    rw [ite_withHostSide, material]
    rfl
  | output =>
    rw [exec, execOutput_eq] at h ⊢
    cases h
    rw [ite_withHostSide]
    rfl

/-- So does the completion of any word, legal or not. -/
theorem executeWord_withHostSide {t : State} {c : Word} (h : executeWord c s = .next t) :
    executeWord c (s.withHostSide ovr irqEn rdata) = .next (t.withHostSide ovr irqEn rdata) := by
  unfold executeWord at h ⊢
  split at h
  · exact exec_withHostSide ovr irqEn rdata h
  · cases h
    exact congrArg _ (complete_withHostSide s ovr irqEn rdata .illegalCmd)

end

theorem happen_engine_eq {c : Word} {s : State} (pending : s.pending = some c) :
    happen .engine s = executeWord c s := by
  simp only [happen, engineTurn, pending]

/-- A completion leaves the block idle with DONE set (30_encoding.md R84). -/
theorem executeWord_completes {c : Word} {s t : State} (h : executeWord c s = .next t) :
    t.status.done = true ∧ t.pending = none := by
  rcases executeWord_cases c s with ⟨i, _, legal⟩ | ⟨_, _, illegal⟩
  · obtain ⟨code, out, tree, om, omv, shape, _⟩ := exec_shape i s
    rw [legal, shape] at h
    cases h
    exact ⟨State.complete_done _ _, rfl⟩
  · rw [illegal] at h
    cases h
    exact ⟨State.complete_done _ _, rfl⟩

/-- Settles O52: the accesses change only what no command reads, so the completion after them is the
completion before them but for that. -/
theorem resultIsTheSameWheneverTheEngineCompletes :
    Obligations.ResultIsTheSameWheneverTheEngineCompletes := by
  intro s u t accesses inv busy access run completion
  obtain ⟨ovr, irqEn, rdata, rfl⟩ := (inv.issued busy).happenAll_accesses access run
  obtain ⟨c, pending⟩ := s.busy_iff.1 busy
  rw [happen_engine_eq pending] at completion
  have later : happen .engine (s.withHostSide ovr irqEn rdata) =
      .next (t.withHostSide ovr irqEn rdata) := by
    have pending' : (s.withHostSide ovr irqEn rdata).pending = some c := pending
    rw [happen_engine_eq pending', executeWord_withHostSide ovr irqEn rdata completion]
  obtain ⟨done, idle⟩ := executeWord_completes completion
  exact ⟨_, later, rfl, rfl, rfl, rfl, rfl, rfl, rfl, rfl, done, idle⟩

end Sys2Proof.Machine
end

section
/-! PROOFS. Command words: the decoder, the encoder, and which words are legal
(30_encoding.md R80 to R84). -/

namespace Sys2Proof.Machine

/-! ## Decoding and encoding (30_encoding.md R81) -/

theorem decode_encode (i : Instr) : decode (encode i) = .ok i := by
  cases i with
  | compress | init | commit | finalize | output => rfl
  | chunk root | parent root => cases root <;> rfl

/-- A word decodes to a command exactly where it is the command's own word. -/
theorem decode_eq_ok_iff {w : Word} {i : Instr} : decode w = .ok i ↔ encode i = w := by
  constructor
  · exact fun h => (eq_encode_of_decode h).symm
  · rintro rfl
    exact decode_encode i

/-- Settles O1. -/
theorem decodeInvertsEncode : Obligations.DecodeInvertsEncode :=
  ⟨fun i _ => decode_encode i, fun _ _ => decode_eq_ok_iff.1⟩

/-- Settles O3: each of the nine words is the encoding of its command. -/
theorem tableWordsDecode : Obligations.TableWordsDecode :=
  ⟨decode_encode .compress, decode_encode .init, decode_encode (.chunk false),
    decode_encode (.chunk true), decode_encode (.parent false), decode_encode (.parent true),
    decode_encode .commit, decode_encode .finalize, decode_encode .output⟩

/-! ## The legal words (30_encoding.md R82) -/

/-- The commands in the order of the opcode map, each with `R = 0` before `R = 1`. -/
def commandTable : List Instr :=
  [.compress, .init, .chunk false, .chunk true, .parent false, .parent true, .commit, .finalize,
    .output]

theorem mem_commandTable (i : Instr) : i ∈ commandTable := by
  cases i with
  | compress | init | commit | finalize | output => decide
  | chunk root | parent root => cases root <;> decide

/-- The words of the opcode map, written out. -/
theorem map_encode_commandTable : commandTable.map encode =
    [0x00000001, 0x00000002, 0x00000003, 0x00000103, 0x00000004, 0x00000104, 0x00000005, 0x00000006,
      0x00000007] := rfl

theorem exists_decode_iff_mem_table {w : Word} :
    (∃ i, decode w = .ok i) ↔ w ∈ commandTable.map encode := by
  simp [decode_eq_ok_iff, mem_commandTable]

theorem legalWord_encode (i : Instr) : legalWord (encode i) = true := by
  cases i with
  | compress => exact Laws.EncodesLegally.compress.2
  | init => exact Laws.EncodesLegally.init.2
  | chunk root => exact (Laws.EncodesLegally.chunk root).2
  | parent root => exact (Laws.EncodesLegally.parent root).2
  | commit => exact Laws.EncodesLegally.commit.2
  | finalize => exact Laws.EncodesLegally.finalize.2
  | output => exact Laws.EncodesLegally.output.2

/-- Of the words with clear reserved fields, one per opcode and root bit, the table lists the legal
ones. -/
theorem commandWord_mem_table : ∀ (op : BitVec 4) (r : Bool), legalWord (commandWord op r) = true →
    commandWord op r ∈ commandTable.map encode := by
  decide

theorem reservedClear_iff {w : Word} :
    reservedClear w = true ↔ w.extractLsb' 4 4 = 0 ∧ w.extractLsb' 9 23 = 0 := by
  simp [reservedClear]

theorem legalWord_iff {w : Word} : legalWord w = true ↔
    opcodeAssigned w = true ∧ reservedClear w = true ∧ rootAllowed w = true := by
  simp [legalWord, and_assoc]

theorem legalWord_iff_exists_decode {w : Word} : legalWord w = true ↔ ∃ i, decode w = .ok i := by
  constructor
  · intro legal
    obtain ⟨_, reserved, _⟩ := legalWord_iff.1 legal
    obtain ⟨low, high⟩ := reservedClear_iff.1 reserved
    have fields := eq_commandWord low high
    rw [fields] at legal
    rw [exists_decode_iff_mem_table, fields]
    exact commandWord_mem_table _ _ legal
  · rintro ⟨i, decodes⟩
    rw [eq_encode_of_decode decodes]
    exact legalWord_encode i

theorem toNat_opcode (w : Word) : (w.extractLsb' 0 4).toNat = w.toNat % 16 := by
  simp

theorem opcodeAssigned_iff {w : Word} :
    opcodeAssigned w = true ↔ 1 ≤ w.toNat % 16 ∧ w.toNat % 16 ≤ 7 := by
  simp only [opcodeAssigned, toNat_opcode, Bool.and_eq_true, decide_eq_true_eq]

theorem rootAllowed_iff {w : Word} :
    rootAllowed w = true ↔ (w.getLsbD 8 = true → w.toNat % 16 = 3 ∨ w.toNat % 16 = 4) := by
  have opcode (n : BitVec 4) : w.extractLsb' 0 4 = n ↔ w.toNat % 16 = n.toNat := by
    rw [← BitVec.toNat_inj, toNat_opcode]
  simp only [rootAllowed, Bool.or_eq_true, beq_iff_eq, opcode, or_assoc]
  cases w.getLsbD 8 <;> simp

/-! ## Issue and completion of any word (30_encoding.md R83, R84) -/

theorem executeWord_legal {c : Word} {i : Instr} (h : decode c = .ok i) (s : State) :
    executeWord c s = exec i s := by
  rw [executeWord, h]

theorem executeWord_illegal {c : Word} (h : legalWord c = false) (s : State) :
    executeWord c s = .next (s.complete .illegalCmd) := by
  rcases executeWord_cases c s with ⟨i, decodes, _⟩ | ⟨_, _, completion⟩
  · rw [legalWord_iff_exists_decode.2 ⟨i, decodes⟩] at h
    cases h
  · exact completion

theorem happen_issue {s : State} (idle : s.busy = false) (w : Word) :
    happen (.write 0x000 4 w) s = .next (s.issue w) := by
  rw [happen_write_eq (by decide) (by decide)]
  exact congrArg _ (writeReg_cmd w idle)

/-- Settles O2: the three checks as `legalWord` makes them, the nine words as those that decode, then
the issue of any word and the completion of an illegal one. -/
theorem illegalWordsOnlyReportIllegalCmd : Obligations.IllegalWordsOnlyReportIllegalCmd := by
  refine ⟨fun w => ?checks, fun w => ?table, fun w => legalWord_iff_exists_decode,
    fun s w idle => happen_issue idle w, fun s w illegal pending => ?completion⟩
  case checks =>
    rw [legalWord_iff, opcodeAssigned_iff, reservedClear_iff, rootAllowed_iff]
  case table =>
    rw [legalWord_iff_exists_decode, exists_decode_iff_mem_table, map_encode_commandTable]
  case completion =>
    rw [happen_engine_eq pending, executeWord_illegal illegal]
    rfl

/-! ## The engine's turn (30_encoding.md R84) -/

theorem happen_engine_idle {s : State} (h : s.pending = none) : happen .engine s = .next s := by
  simp only [happen, engineTurn, h]

/-- With no event left a step is the engine's turn, as an event (log 2). -/
theorem step_eq_happen_engine {s : State} (h : s.inputs = []) : step s = happen .engine s :=
  step_nil h

/-- Settles O4: a step in the engine's turn is the engine's event, with an event taken or with none
left. -/
theorem stepRunsThePendingCommand : Obligations.StepRunsThePendingCommand := by
  have turn {s : State} {c : Word} {i : Instr} (pending : s.pending = some c) (h : decode c = .ok i) :
      happen .engine s = exec i s := by
    rw [happen_engine_eq pending, executeWord_legal h]
  refine ⟨fun s c i rest next pending h => ?_, fun s c i last pending h => ?_,
    fun s rest next idle => ?_, fun s last idle => ?_⟩
  · rw [step_cons next]
    exact turn pending h
  · rw [step_eq_happen_engine last]
    exact turn pending h
  · rw [step_cons next]
    exact happen_engine_idle idle
  · rw [step_eq_happen_engine last]
    exact happen_engine_idle idle

end Sys2Proof.Machine
end

section
/-! PROOFS. What every command leaves, and what it writes to OUT (30_encoding.md R84, R85). -/

namespace Sys2Proof.Machine

/-- Settles O32: a command ends with a code, and ERR is set exactly where the code is an error. -/
theorem everyCommandCompletes : Obligations.EveryCommandCompletes := by
  intro i s
  obtain ⟨code, out, tree, om, omv, next, _⟩ := exec_shape i s
  refine ⟨_, next, rfl, State.complete_done _ _, fun err errCode => ?_⟩
  rw [State.complete_err, State.complete_errCode]
  by_cases noError : code = .none <;> simp [noError, err, errCode]

/-! ## Frames (30_encoding.md R85) -/

/-- What no command changes: OVR, CTRL, the input registers, the buffer, the read data, and the
model's own fields. -/
theorem exec_frame {i : Instr} {s t : State} (h : exec i s = .next t) :
    t = { s with
      pending := none, status := t.status, out := t.out, tree := t.tree, om := t.om, omv := t.omv } ∧
    t.status.ovr = s.status.ovr ∧ ∀ k, t.buf k = s.buf k := by
  obtain ⟨code, out, tree, om, omv, next, _⟩ := exec_shape i s
  rw [next] at h
  cases h
  exact ⟨rfl, State.complete_ovr _ _, fun _ => rfl⟩

/-- Only INIT and COMMIT change the tree engine's state. -/
theorem exec_tree_same {i : Instr} {s t : State} (notInit : i ≠ .init) (notCommit : i ≠ .commit)
    (h : exec i s = .next t) : t.tree = s.tree := by
  rcases exec_tree h with same | ⟨init, _⟩ | ⟨commit, _⟩
  · exact same
  · exact absurd init notInit
  · exact absurd commit notCommit

/-- Only INIT and the root forms change the output material or its valid bit. -/
theorem exec_material_same {i : Instr} {s t : State} (notInit : i ≠ .init)
    (notRoot : ¬ (i = .chunk true ∨ i = .parent true ∨ i = .finalize)) (h : exec i s = .next t) :
    t.om = s.om ∧ t.omv = s.omv := by
  rcases exec_material h with same | ⟨init, _⟩ | ⟨root, _⟩
  · exact same
  · exact absurd init notInit
  · exact absurd root notRoot

/-- Settles O35: the frame of every command, with the tree and the output material kept too. -/
theorem plainCommandsChangeOnlyOut : Obligations.PlainCommandsChangeOnlyOut := by
  intro i s t plain h
  obtain ⟨notInit, notCommit⟩ : i ≠ .init ∧ i ≠ .commit := by
    rcases plain with rfl | rfl | rfl | rfl <;> decide
  have notRoot : ¬ (i = .chunk true ∨ i = .parent true ∨ i = .finalize) := by
    rcases plain with rfl | rfl | rfl | rfl <;> decide
  have tree := exec_tree_same notInit notCommit h
  obtain ⟨om, omv⟩ := exec_material_same notInit notRoot h
  obtain ⟨frame, ovr, buf⟩ := exec_frame h
  rw [tree, om, omv] at frame
  exact ⟨frame, ovr, buf⟩

/-- Settles O36: the frame of every command, with the tree kept too. -/
theorem rootCommandsChangeOnlyOutAndMaterial : Obligations.RootCommandsChangeOnlyOutAndMaterial := by
  intro i s t root h
  obtain ⟨notInit, notCommit⟩ : i ≠ .init ∧ i ≠ .commit := by
    rcases root with rfl | rfl | rfl <;> decide
  have tree := exec_tree_same notInit notCommit h
  obtain ⟨frame, ovr, buf⟩ := exec_frame h
  rw [tree] at frame
  exact ⟨frame, ovr, buf⟩

/-- A push writes the entry at the stack pointer and no other. -/
theorem stackEntry_of_push {s t : State} {acc : Cv} {sp : BitVec 7} (push : t.tree = s.tree.push acc sp)
    {k : Nat} (other : k ≠ sp.toNat) : t.stackEntry k = s.stackEntry k := by
  simp only [State.stackEntry, push, Tree.push, Vector.getElem_setIfInBounds, if_neg other.symm]

/-- What COMMIT leaves of the tree: the mode state, and the stack entries below the one it pushes. -/
theorem execCommit_tree {s t : State} (h : exec .commit s = .next t) :
    t.tree = { s.tree with
      stack := t.tree.stack, sp := t.tree.sp, chunkCount := t.tree.chunkCount } ∧
    ∀ k, k + 1 < t.tree.sp.toNat → t.stackEntry k = s.stackEntry k := by
  rcases exec_tree h with same | ⟨init, _⟩ | ⟨_, _, _, push⟩
  · rw [same]
    exact ⟨rfl, fun k _ => State.stackEntry_congr same k⟩
  · cases init
  · refine ⟨by rw [push]; rfl, fun k below => stackEntry_of_push push ?_⟩
    have spLe : t.tree.sp.toNat ≤ s.commitFold.2.toNat + 1 := by
      rw [push]
      exact (BitVec.toNat_add _ _).trans_le (Nat.mod_le _ _)
    omega

/-- Settles O37: INIT by its one outcome, COMMIT by the frame of every command and what it leaves of
the tree. The invariant of R154 is not needed: the new stack pointer is one above the pushed entry, or
has wrapped to 0 and no entry is below it. -/
theorem treeCommandsChangeOnlyTheTree : Obligations.TreeCommandsChangeOnlyTheTree := by
  refine ⟨fun s t h => ?init, fun s t _ h => ?commit⟩
  case init =>
    cases h
    exact ⟨rfl, rfl, fun _ => rfl⟩
  case commit =>
    obtain ⟨tree, below⟩ := execCommit_tree h
    obtain ⟨om, omv⟩ := exec_material_same (by decide) (by decide) h
    obtain ⟨frame, ovr, buf⟩ := exec_frame h
    rw [tree, om, omv] at frame
    exact ⟨frame, ovr, buf, below⟩

/-! ## OUT and the compressions of a command (10_state.md R37, 30_encoding.md R85) -/

/-- The result of the last of a list of compressions, or `res` where there is none. -/
def lastResult (js : List Job) (res : Block) : Block := (js.getLast?.map Job.result).getD res

@[simp] theorem lastResult_nil (res : Block) : lastResult [] res = res := rfl

@[simp] theorem lastResult_cons (j : Job) (js : List Job) (res : Block) :
    lastResult (j :: js) res = lastResult js j.result := by
  cases h : js.getLast? <;> simp [lastResult, List.getLast?_cons, h]

@[simp] theorem lastResult_append (a b : List Job) (res : Block) :
    lastResult (a ++ b) res = lastResult b (lastResult a res) := by
  induction a generalizing res with
  | nil => rfl
  | cons j a ih => simp only [List.cons_append, lastResult_cons, ih]

@[simp] theorem lastResult_chunkJobs (c : ChunkIn) (res : Block) : lastResult c.jobs res = c.last := by
  obtain ⟨n, count⟩ : ∃ n, blockCount c.len = n + 1 :=
    Nat.exists_eq_add_one.2 (blockCount_pos c.len)
  have lastBlock : c.lastBlock = c.block n (c.cvAt n) := by
    rw [ChunkIn.lastBlock, count, Nat.add_sub_cancel]
  rw [ChunkIn.jobs, count, List.range_succ, List.map_append, lastResult_append, ChunkIn.last, lastBlock]
  rfl

/-- COMMIT's merges carry the result of the last compression (42_tree.md R157). -/
@[simp] theorem lastResult_mergeJobs (s : State) (n : Nat) (res : Block) (sp : BitVec 7) :
    lastResult (s.mergeJobs n res sp) res = (s.mergeTop n res sp).1 := by
  induction n generalizing res sp with
  | zero => rfl
  | succ n ih =>
    rw [State.mergeJobs, lastResult_cons, State.mergeTop_succ]
    exact ih _ _

theorem lastResult_finalizeJobs (s : State) (res : Block)
    (ok : ¬ (1024 < s.regs.chunkLen.toNat ∨ (s.tree.chunkCount ≠ 0 ∧ s.regs.chunkLen = 0))) :
    lastResult (jobs .finalize s) res = s.rootMaterial.compress s.rootCounter := by
  rw [jobs, if_neg ok, State.rootCounter]
  split
  · next lone =>
    rw [lastResult_chunkJobs, State.rootMaterial, if_pos lone]
    rfl
  · rw [lastResult_append]
    rfl

/-- Settles O38, command by command: an error leaves OUT and performs no compression, and a success
writes the last result. -/
theorem outHoldsTheLastCompression : Obligations.OutHoldsTheLastCompression := by
  intro i s t h
  change t.out = lastResult (jobs i s) s.out
  cases i with
  | compress =>
    rw [exec, execCompress_eq] at h
    cases h
    rw [jobs]
    split <;> rfl
  | init => cases h; rfl
  | chunk root =>
    rw [exec, execChunk_eq] at h
    cases h
    rw [jobs]
    split
    · rfl
    · rw [lastResult_chunkJobs]
      cases root <;> rfl
  | parent root => cases h; cases root <;> rfl
  | commit =>
    rw [exec, execCommit_eq] at h
    cases h
    rw [jobs]
    by_cases len : s.regs.chunkLen ≠ 1024
    · rw [if_pos len, if_pos (.inl len)]
      rfl
    by_cases count : s.tree.chunkCount = BitVec.allOnes 64
    · rw [if_neg len, if_pos count, if_pos (.inr count)]
      rfl
    rw [if_neg len, if_neg count, if_neg (not_or.2 ⟨len, count⟩), lastResult_append,
      lastResult_chunkJobs, lastResult_mergeJobs]
    rfl
  | finalize =>
    rw [exec, execFinalize_eq] at h
    cases h
    split
    · next bad =>
      rw [jobs, if_pos bad]
      rfl
    · next ok =>
      rw [lastResult_finalizeJobs s _ ok]
      rfl
  | output =>
    rw [exec, execOutput_eq] at h
    cases h
    rw [jobs]
    cases s.omv <;> rfl

end Sys2Proof.Machine
end

section
/-! PROOFS. The `WAIT` of a host script (30_encoding.md R91). -/

namespace Sys2Proof.Machine.Script

/-- STATUS reads, one after the other, leave what one of them leaves. -/
theorem happenAll_readStatus (n : Nat) (s : State) :
    happenAll (List.replicate (n + 1) (.read 0x004 4)) s = .next { s with rdata := s.statusWord } := by
  induction n generalizing s with
  | zero => exact happenAll_cons_next (happen_readStatus s) []
  | succ n ih =>
    rw [List.replicate_succ, happenAll_cons_next (happen_readStatus s), ih]
    rfl

/-- A read of `WAIT` leads from the block as it stands, by the events noted, to the block the host
holds after it. -/
theorem poll_happens (d : Driver) : happenAll d.poll.2 d.state = .next d.poll.1.state := by
  obtain ⟨t, events, access⟩ := access_next d (e := .read Reg.status.offset 4) (by decide)
  rw [Driver.poll, access, next_state]
  exact events

/-- `WAIT` goes on after a read that answers BUSY = 1, and ends with one that answers BUSY = 0. -/
theorem waitFuel_again {fuel : Nat} {d : Driver} (busy : d.poll.1.state.rdata.getLsbD 0 = true) :
    Driver.waitFuel (fuel + 1) d = ((Driver.waitFuel fuel d.poll.1).1,
      d.poll.2 ++ (Driver.waitFuel fuel d.poll.1).2) := by
  rw [Driver.waitFuel, if_pos busy]

theorem waitFuel_done {fuel : Nat} {d : Driver} (idle : d.poll.1.state.rdata.getLsbD 0 = false) :
    Driver.waitFuel fuel d = d.poll := by
  cases fuel with
  | zero => rfl
  | succ fuel => rw [Driver.waitFuel, idle, if_neg Bool.false_ne_true]

/-- `WAIT` leads, by the events noted, to the block the host holds after it. -/
theorem waitFuel_happens (fuel : Nat) (d : Driver) :
    happenAll (Driver.waitFuel fuel d).2 d.state = .next (Driver.waitFuel fuel d).1.state := by
  induction fuel generalizing d with
  | zero => exact poll_happens d
  | succ fuel ih =>
    cases answer : d.poll.1.state.rdata.getLsbD 0 with
    | false => rw [waitFuel_done answer]; exact poll_happens d
    | true => rw [waitFuel_again answer, happenAll_append (poll_happens d)]; exact ih _

/-- The reads of `WAIT` are those in `reads`, and it ends with the block idle and an answer that says
so. -/
def Driver.WaitsBy (d : Driver) (reads : List Event) : Prop :=
  d.wait.2 = reads ∧ d.wait.1.state.busy = false ∧ d.wait.1.state.rdata.getLsbD 0 = false

theorem waitsBy_of_idle {d : Driver} (idle : d.state.busy = false) : d.WaitsBy [.read 0x004 4] := by
  have poll := poll_early (d := d) (by simp [idle])
  have answer : d.poll.1.state.rdata.getLsbD 0 = false := by
    rw [poll]
    exact (statusWord_busy d.state).trans idle
  refine ⟨?_, ?_, ?_⟩
  all_goals rw [Driver.wait, waitFuel_done answer]
  · rw [poll]
  · rw [poll]; exact idle
  · exact answer

/-- A read at which the command's time has come completes it first. -/
theorem waitsBy_of_due {d : Driver} (busy : d.state.busy = true) (due : d.left = 0) :
    d.WaitsBy [.engine, .read 0x004 4] := by
  obtain ⟨c, pending⟩ := d.state.busy_iff.1 busy
  obtain ⟨t, completion⟩ := happen_next (e := .engine) rfl d.state
  have idle : t.busy = false := by
    rw [happen_engine_eq pending] at completion
    exact t.busy_of_none (executeWord_completes completion).2
  have poll := poll_due busy due completion
  have wait : d.wait = d.poll := by rw [Driver.wait, due]; rfl
  refine ⟨?_, ?_, ?_⟩
  all_goals rw [wait, poll]
  · rw [next_state]; exact idle
  · rw [next_state]; exact (statusWord_busy t).trans idle

/-- While a command is pending every access it waits for is one more read. -/
theorem waitsBy_of_busy {n : Nat} {d : Driver} (busy : d.state.busy = true) (left : d.left = n) :
    d.WaitsBy (List.replicate n (.read 0x004 4) ++ [.engine, .read 0x004 4]) := by
  induction n generalizing d with
  | zero => exact waitsBy_of_due busy left
  | succ n ih =>
    have poll := poll_early (d := d) (by simp [left])
    have answer : d.poll.1.state.rdata.getLsbD 0 = true := by
      rw [poll]
      exact (statusWord_busy d.state).trans busy
    have left' : d.poll.1.left = n := by rw [poll]; simp [left]
    have busy' : d.poll.1.state.busy = true := by rw [poll]; exact busy
    have wait : d.wait = (d.poll.1.wait.1, .read 0x004 4 :: d.poll.1.wait.2) := by
      rw [Driver.wait, left, waitFuel_again answer, Driver.wait, left', poll]
      rfl
    obtain ⟨reads, idle, last⟩ := ih busy' left'
    refine ⟨?_, ?_, ?_⟩
    all_goals rw [wait]
    · rw [reads]; rfl
    · exact idle
    · exact last

/-- Settles O58, by induction on the accesses the pending command still waits for. -/
theorem waitReadsStatusUntilIdle : Obligations.WaitReadsStatusUntilIdle := by
  intro d
  have waits : d.WaitsBy (if d.state.busy then
        List.replicate d.left (.read 0x004 4) ++ [.engine, .read 0x004 4]
      else [.read 0x004 4]) := by
    split
    · next busy => exact waitsBy_of_busy busy rfl
    · next idle => exact waitsBy_of_idle (by simpa using idle)
  obtain ⟨reads, idle, last⟩ := waits
  refine ⟨reads, waitFuel_happens d.left d, idle, last, fun n busy pos _ => ?_⟩
  obtain ⟨n, rfl⟩ := Nat.exists_eq_add_one.2 pos
  exact ⟨_, happenAll_readStatus n d.state, (statusWord_busy d.state).trans busy⟩

end Sys2Proof.Machine.Script
end

section
/-! PROOFS. The compression unit and COMPRESS (40_compress.md). -/

namespace Sys2Proof.Machine

/-! ## The quarter-round (40_compress.md R106, R107) -/

theorem rotr32_eq_rotateRight (x : Word) {n : Nat} (h : n < 32) : rotr32 x n = x.rotateRight n := by
  rw [BitVec.rotateRight_def, Nat.mod_eq_of_lt h, rotr32]

section
variable (v : Block) (a b c d : Fin 16) (x y : Word)

/-- `G` leaves every word but its own four. -/
theorem mixG_getElem_other {j : Fin 16} (h : j ∉ [a, b, c, d]) : (mixG v a b c d x y)[j] = v[j] := by
  simp only [List.mem_cons, List.not_mem_nil, or_false, not_or] at h
  obtain ⟨ha, hb, hc, hd⟩ := h
  simp only [mixG, Fin.getElem_fin, Vector.getElem_set, Fin.val_inj, if_neg (Ne.symm ha),
    if_neg (Ne.symm hb), if_neg (Ne.symm hc), if_neg (Ne.symm hd)]

/-- The four words `G` leaves are the quarter-round of the four it finds. -/
theorem mixG_getElem_own (distinct : [a, b, c, d].Nodup) :
    (⟨(mixG v a b c d x y)[a], (mixG v a b c d x y)[b], (mixG v a b c d x y)[c],
      (mixG v a b c d x y)[d]⟩ : Quad) = quarter ⟨v[a], v[b], v[c], v[d]⟩ x y := by
  obtain ⟨⟨hab, hac, had⟩, ⟨hbc, hbd⟩, hcd⟩ :
      (a ≠ b ∧ a ≠ c ∧ a ≠ d) ∧ (b ≠ c ∧ b ≠ d) ∧ c ≠ d := by simpa using distinct
  simp only [mixG_getElem v x y _ hbc hbd hcd hab hac had, if_true, if_neg hab.symm, if_neg hac.symm,
    if_neg had.symm, if_neg hbc.symm, if_neg hbd.symm, if_neg hcd.symm]

/-- The words `G` writes depend on those four words only. -/
theorem mixG_getElem_congr (distinct : [a, b, c, d].Nodup) {w : Block}
    (agree : ∀ i ∈ [a, b, c, d], v[i] = w[i]) :
    ∀ j ∈ [a, b, c, d], (mixG v a b c d x y)[j] = (mixG w a b c d x y)[j] := by
  have same := mixG_getElem_own v a b c d x y distinct
  rw [agree a (by simp), agree b (by simp), agree c (by simp), agree d (by simp),
    ← mixG_getElem_own w a b c d x y distinct, Quad.mk.injEq] at same
  simpa using same

end

/-- Settles O5: the eight statements are those of `quarter`, each `rotr32` a rotation. -/
theorem quarterRoundRunsItsStatementsInOrder : Obligations.QuarterRoundRunsItsStatementsInOrder := by
  intro v a b c d x y distinct
  have own := mixG_getElem_own v a b c d x y distinct
  simp only [quarter, Quad.mk.injEq] at own
  simp (disch := decide) only [rotr32_eq_rotateRight] at own
  obtain ⟨ha, hb, hc, hd⟩ := own
  refine ⟨_, _, _, _, rfl, rfl, rfl, rfl, ha, ?_, ?_, ?_, fun j h => mixG_getElem_other v a b c d x y h⟩
  · rw [hd, ha]
  · rw [hc, hd]
  · rw [hb, hc]

/-- Settles O7: each `G` finds its own four words as they are without the other, and leaves the words
of the other. -/
theorem disjointQuarterRoundsCommute : Obligations.DisjointQuarterRoundsCommute := by
  intro v a b c d a' b' c' d' x y x' y' distinct
  obtain ⟨own, own', apart⟩ := List.nodup_append'.1
    (show ([a, b, c, d] ++ [a', b', c', d']).Nodup from distinct)
  have first : ∀ i ∈ [a, b, c, d], (mixG v a' b' c' d' x' y')[i] = v[i] := fun i h =>
    mixG_getElem_other v a' b' c' d' x' y' (apart h)
  have second : ∀ i ∈ [a', b', c', d'], (mixG v a b c d x y)[i] = v[i] := fun i h' =>
    mixG_getElem_other v a b c d x y fun h => apart h h'
  suffices ∀ j : Fin 16, (mixG (mixG v a b c d x y) a' b' c' d' x' y')[j] =
      (mixG (mixG v a' b' c' d' x' y') a b c d x y)[j] from
    Vector.ext fun i hi => this ⟨i, hi⟩
  intro j
  by_cases h : j ∈ [a, b, c, d]
  · rw [mixG_getElem_other _ _ _ _ _ _ _ (apart h), mixG_getElem_congr _ _ _ _ _ _ _ own first j h]
  rw [mixG_getElem_other _ a b c d _ _ h]
  by_cases h' : j ∈ [a', b', c', d']
  · exact mixG_getElem_congr _ _ _ _ _ _ _ own' second j h'
  · rw [mixG_getElem_other _ _ _ _ _ _ _ h', mixG_getElem_other _ _ _ _ _ _ _ h,
      mixG_getElem_other _ _ _ _ _ _ _ h']

/-! ## The schedule (40_compress.md R102, R103) -/

theorem perm_bijective : Function.Bijective fun i : Fin 16 => perm[i] := by decide

theorem schedule_bijective (r : Nat) : Function.Bijective fun i : Fin 16 => (schedule r)[i] := by
  induction r with
  | zero => simp
  | succ r ih =>
    simp only [schedule_succ_getElem]
    exact ih.comp perm_bijective

/-- Settles O6: the values by evaluation, the permutations by induction on the row. -/
theorem scheduleRowsArePermutations : Obligations.ScheduleRowsArePermutations :=
  ⟨rfl, rfl, fun i => by simp, schedule_succ_getElem, schedule_bijective⟩

/-! ## Rounds on a permuted message (40_compress.md R107, R115) -/

/-- The message words in the order in which round `r` uses them. -/
def scheduledMessage (m : Block) (r : Nat) : Block := Vector.ofFn fun i => m[(schedule r)[i]]

/-- A round on the message words in order. -/
def inOrderRound (m v : Block) : Block :=
  diagonals m (Vector.ofFn id) (columns m (Vector.ofFn id) v)

@[simp] theorem scheduledMessage_zero (m : Block) : scheduledMessage m 0 = m := by
  simp [scheduledMessage]

@[simp] theorem permuteMessage_scheduledMessage (m : Block) (r : Nat) :
    permuteMessage (scheduledMessage m r) = scheduledMessage m (r + 1) := by
  refine congrArg Vector.ofFn (funext fun i => ?_)
  simp only [schedule_succ_getElem]
  simp [scheduledMessage]

/-- A round by schedule row `r` is a round in order on the words that row selects. -/
theorem roundStep_eq_inOrderRound (m v : Block) (r : Nat) :
    roundStep m v r = inOrderRound (scheduledMessage m r) v := by
  simp [roundStep, inOrderRound, columns, diagonals, scheduledMessage]

theorem permutingRounds_succ (n : Nat) (m v : Block) :
    permutingRounds (n + 1) m v = permutingRounds n (permuteMessage m) (inOrderRound m v) := rfl

/-- Rounds that permute the message are rounds that follow the schedule, from any row. -/
theorem permutingRounds_scheduledMessage (n r : Nat) (m v : Block) :
    permutingRounds n (scheduledMessage m r) v = (List.range' r n).foldl (roundStep m) v := by
  induction n generalizing r v with
  | zero => rfl
  | succ n ih =>
    rw [permutingRounds_succ, permuteMessage_scheduledMessage, ih, List.range'_succ, List.foldl_cons,
      roundStep_eq_inOrderRound]

theorem compress_eq_permutingCompress (cv : Cv) (m : Block) (counter : BitVec 64)
    (blockLen : BitVec 7) (flags : Byte) :
    compress cv m counter blockLen flags = permutingCompress cv m counter blockLen flags := by
  rw [compress, permutingCompress, List.range_eq_range', ← permutingRounds_scheduledMessage,
    scheduledMessage_zero]

/-! ## The compression written out (40_compress.md R105, R107, R109) -/

theorem initState_eq (cv : Cv) (counter : BitVec 64) (blockLen : BitVec 7) (flags : Byte) :
    initState cv counter blockLen flags =
      #v[cv[0], cv[1], cv[2], cv[3], cv[4], cv[5], cv[6], cv[7],
        0x6A09E667, 0xBB67AE85, 0x3C6EF372, 0xA54FF53A,
        counter.extractLsb' 0 32, counter.extractLsb' 32 32, blockLen.setWidth 32,
        flags.setWidth 32] := by
  have parts : cv = #v[cv[0], cv[1], cv[2], cv[3], cv[4], cv[5], cv[6], cv[7]] := by
    ext i hi; interval_cases i <;> rfl
  rw [initState, parts]; rfl

theorem permuteMessage_eq (m : Block) : permuteMessage m =
    #v[m[2], m[6], m[3], m[10], m[7], m[0], m[4], m[13],
      m[1], m[11], m[12], m[5], m[9], m[14], m[15], m[8]] := by
  ext i hi
  rw [permuteMessage, Vector.getElem_ofFn]
  interval_cases i <;> rfl

/-- The eight G's of a round, with their indices and message words (R107). -/
theorem inOrderRound_eq (m v : Block) : inOrderRound m v =
    mixG (mixG (mixG (mixG (mixG (mixG (mixG (mixG v 0 4 8 12 m[0] m[1]) 1 5 9 13 m[2] m[3])
      2 6 10 14 m[4] m[5]) 3 7 11 15 m[6] m[7]) 0 5 10 15 m[8] m[9]) 1 6 11 12 m[10] m[11])
      2 7 8 13 m[12] m[13]) 3 4 9 14 m[14] m[15] := by
  simp [inOrderRound, columns, diagonals]

/-- Settles O9: the rounds that follow the schedule are those that permute the message, and both are
the G's written out. -/
theorem compressionPermutesTheMessageInstead : Obligations.CompressionPermutesTheMessageInstead := by
  intro cv m counter blockLen flags
  simp only [← initState_eq, ← permuteMessage_eq, ← inOrderRound_eq]
  refine ⟨?_, ?_, compress_eq_permutingCompress ..⟩
  · rw [compress, funext₂ (roundStep_eq_inOrderRound m)]; rfl
  · exact compress_eq_permutingCompress ..

/-- Settles O8, by the two halves of the feed-forward. -/
theorem feedForwardMixesTheHalves : Obligations.FeedForwardMixesTheHalves := by
  intro cv v i
  constructor
  · simp [feedForward]
  · simp [feedForward]

/-! ## COMPRESS (40_compress.md R113) -/

/-- Settles O10: the two ways COMPRESS ends. -/
theorem compressCompressesItsOperands : Obligations.CompressCompressesItsOperands := by
  refine ⟨fun s legal => ?_, fun s long => ?_⟩
  · rw [exec, execCompress_eq, if_neg (Nat.not_lt.2 legal)]; rfl
  · rw [exec, execCompress_eq, if_pos long]; rfl

end Sys2Proof.Machine
end

section
/-! PROOFS. The chunk processor and CHUNK (41_chunk.md). -/

namespace Sys2Proof.Machine

/-! ## The blocks of a chunk (41_chunk.md R131) -/

/-- The first `n` blocks hold the first `64 n` bytes of the chunk. -/
theorem sum_blockBytes (len n : Nat) :
    ((List.range n).map (blockBytes len)).sum = min len (64 * n) := by
  induction n with
  | zero => simp
  | succ n ih =>
    rw [List.range_succ, List.map_append, List.sum_append, ih, List.map_singleton, List.sum_singleton,
      blockBytes]
    omega

/-- The blocks reach to the end of the chunk. -/
theorem le_mul_blockCount (len : Nat) : len ≤ 64 * blockCount len := by unfold blockCount; omega

/-- The last block is empty only where the chunk is. -/
theorem blockBytes_last_eq_zero {len : Nat} : blockBytes len (blockCount len - 1) = 0 ↔ len = 0 := by
  unfold blockBytes blockCount; omega

/-- Settles O11. -/
theorem blocksPartitionTheChunk : Obligations.BlocksPartitionTheChunk := by
  intro len legal
  refine ⟨blockCount_pos len, blockCount_le legal, fun i => blockBytes_full, blockBytes_le len _,
    blockBytes_last_eq_zero, ?_⟩
  rw [sum_blockBytes, Nat.min_eq_left (le_mul_blockCount len)]

/-! ## The message of a block (41_chunk.md R132, R133) -/

/-- A buffer word, read over the bus. -/
theorem readReg_regAt_buf (s : State) {w : Nat} (hw : w < 256) :
    s.readReg (regAt (0x400 + 4 * w)) = s.bufWord w := by
  rw [show regAt (0x400 + 4 * w) = .buf ⟨w, hw⟩ from regAt_buf ⟨w, hw⟩, State.readReg]

/-- A full block's bytes are the buffer's. -/
theorem ChunkIn.byte_of_full {c : ChunkIn} {i k : Nat} (full : 64 * i + 64 ≤ c.len) (hk : k < 64) :
    c.byte i k = c.buf (64 * i + k) := by
  rw [ChunkIn.byte, if_pos]
  unfold blockBytes
  omega

/-- A full block's message is its sixteen words of the buffer. -/
theorem ChunkIn.words_of_full {c : ChunkIn} {i : Nat} (full : 64 * i + 64 ≤ c.len) (j : Fin 16) :
    (c.words i)[j] = le32 c.buf (16 * i + j.val) := by
  have word : le32 (c.byte i) j.val = le32 c.buf (16 * i + j.val) := le32_eq fun k hk => by
    rw [byteOf_le32 _ _ hk, ChunkIn.byte_of_full full (by omega)]
    congr 1
    omega
  simpa [ChunkIn.words] using word

/-- Settles O12. -/
theorem fullBlockMessageIsTheBufferWords : Obligations.FullBlockMessageIsTheBufferWords := by
  intro s counter root i j full hi
  rw [readReg_regAt_buf s (by omega)]
  exact ChunkIn.words_of_full full j

/-! ## The flag byte of a block (40_compress.md R101, 41_chunk.md R134) -/

theorem getLsbD_flagChunkStart (b : Nat) : flagChunkStart.getLsbD b = (b == 0) := by
  rw [show flagChunkStart = BitVec.twoPow 8 0 from rfl, BitVec.getLsbD_twoPow]
  simp [eq_comm, beq_eq_decide]

theorem getLsbD_flagChunkEnd (b : Nat) : flagChunkEnd.getLsbD b = (b == 1) := by
  rw [show flagChunkEnd = BitVec.twoPow 8 1 from rfl, BitVec.getLsbD_twoPow]
  simp [eq_comm, beq_eq_decide]

theorem getLsbD_flagRoot (b : Nat) : flagRoot.getLsbD b = (b == 3) := by
  rw [show flagRoot = BitVec.twoPow 8 3 from rfl, BitVec.getLsbD_twoPow]
  simp [eq_comm, beq_eq_decide]

/-- Settles O13: each flag is one bit, and the last of `n` blocks is block `n - 1`. -/
theorem blockFlagsMarkFirstLastAndRoot : Obligations.BlockFlagsMarkFirstLastAndRoot := by
  intro base root i n b hi
  have last : (i + 1 == n) = (i == n - 1) := by
    rw [Bool.eq_iff_iff, beq_iff_eq, beq_iff_eq]
    omega
  simp only [blockFlags, BitVec.getLsbD_or, getLsbD_flagIf, getLsbD_flagChunkStart,
    getLsbD_flagChunkEnd, getLsbD_flagRoot, last]
  ac_rfl

/-! ## The chunk processor as a loop (41_chunk.md R136 to R138) -/

/-- The last block is `blockCount - 1`, by either way to say it. -/
theorem succ_eq_blockCount {len i : Nat} : i + 1 = blockCount len ↔ i = blockCount len - 1 := by
  have := blockCount_pos len
  omega

/-- The flag byte of a block as the loop writes it. -/
theorem blockFlags_blockCount (base : Byte) (isRoot : Bool) (i len : Nat) :
    blockFlags base isRoot i (blockCount len) =
      base ||| (if i = 0 then 0x01 else 0) ||| (if i = blockCount len - 1 then 0x02 else 0)
        ||| (if isRoot ∧ i = blockCount len - 1 then 0x08 else 0) := by
  simp [blockFlags, flagIf, succ_eq_blockCount, flagChunkStart, flagChunkEnd, flagRoot]

/-- The loop's block is the chunk processor's: the length of an empty chunk's block needs no case of
its own. -/
theorem ChunkIn.loopBlock_eq_block (c : ChunkIn) (i : Nat) (cv : Cv) :
    c.loopBlock i cv = c.block i cv := by
  have blen : (if c.len = 0 then 0 else min 64 (c.len - 64 * i)) = blockBytes c.len i := by
    unfold blockBytes
    split <;> omega
  rw [ChunkIn.loopBlock, blen, ← blockFlags_blockCount]
  rfl

/-- From block `i` on, with the CV the blocks before it leave, `n + 1` rounds of the loop end with
block `i + n`. -/
theorem ChunkIn.loop_eq (c : ChunkIn) (n i : Nat) (before : Option (Block × Material)) :
    c.loop (n + 1) i (c.cvAt i) before =
      some ((c.block (i + n) (c.cvAt (i + n))).compress c.counter, c.block (i + n) (c.cvAt (i + n))) := by
  induction n generalizing i before with
  | zero => rw [ChunkIn.loop, ChunkIn.loopBlock_eq_block]; rfl
  | succ n ih =>
    rw [ChunkIn.loop, ChunkIn.loopBlock_eq_block]
    refine (ih (i + 1) _).trans ?_
    rw [Nat.add_right_comm i 1 n]
    rfl

/-- The whole loop gives the chunk's last state and the inputs of its last block. -/
theorem ChunkIn.loop_blockCount (c : ChunkIn) :
    c.loop (blockCount c.len) 0 c.key none = some (c.last, c.lastBlock) := by
  have loop := c.loop_eq (blockCount c.len - 1) 0 none
  rwa [Nat.sub_add_cancel (blockCount_pos c.len), Nat.zero_add] at loop

/-- Settles O14: the two ways CHUNK ends. -/
theorem chunkRunsTheChunkLoop : Obligations.ChunkRunsTheChunkLoop := by
  refine ⟨fun s root legal => ⟨_, _, ChunkIn.loop_blockCount _, ?_⟩, fun s root long => ?_⟩
  · rw [exec, execChunk_eq, if_neg (Nat.not_lt.2 legal)]
    cases root <;> rfl
  · rw [exec, execChunk_eq, if_pos long]
    rfl

/-! ## Bytes past the chunk's length (41_chunk.md R132) -/

section
variable {s t : State} (chunk : ∀ k < s.regs.chunkLen.toNat, t.buf k = s.buf k)
  (tree : t.tree = s.tree) (regs : t.regs = s.regs)
include chunk tree regs

/-- States that agree on the tree engine, the registers and the chunk's bytes have the same last
block. -/
theorem State.chunkIn_lastBlock_congr (counter : BitVec 64) (root : Bool) :
    (t.chunkIn counter root).lastBlock = (s.chunkIn counter root).lastBlock := by
  refine (ChunkIn.lastBlock_congr (c := s.chunkIn counter root) (c' := t.chunkIn counter root)
    ?_ ?_ rfl ?_ rfl fun k below => (chunk k below).symm).symm
  all_goals simp only [State.chunkIn, tree, regs]

theorem State.chunkIn_last_congr (counter : BitVec 64) (root : Bool) :
    (t.chunkIn counter root).last = (s.chunkIn counter root).last := by
  rw [ChunkIn.last, State.chunkIn_lastBlock_congr chunk tree regs]
  rfl

theorem State.commitFold_congr_chunk : t.commitFold = s.commitFold := by
  rw [State.commitFold, State.mergeTop_congr tree, State.chunkIn_last_congr chunk tree regs, tree]
  rfl

theorem State.rootMaterial_congr_chunk : t.rootMaterial = s.rootMaterial := by
  rw [State.rootMaterial, State.foldDown_congr tree, State.stackEntry_congr tree,
    State.chunkIn_lastBlock_congr chunk tree regs, State.chunkIn_last_congr chunk tree regs, tree]
  rfl

end

/-- Another memory put under a check that a command makes. -/
theorem ite_withMem (p : Prop) [Decidable p] (a b : State) (mem : Memory) :
    ({ (if p then a else b) with mem := mem } : State) =
      if p then { a with mem := mem } else { b with mem := mem } :=
  apply_ite (fun s : State => { s with mem := mem }) p a b

/-- Settles O15: of the memory a command reads the chunk's bytes only, by way of CHUNK's last block,
COMMIT's fold and FINALIZE's root material. -/
theorem bytesPastTheLengthAreNeverRead : Obligations.BytesPastTheLengthAreNeverRead := by
  intro i s t mem agree h
  cases i with
  | compress =>
    rw [exec, execCompress_eq] at h ⊢
    cases h
    rw [ite_withMem]
    rfl
  | init => cases h; rfl
  | chunk root =>
    rw [exec, execChunk_eq] at h ⊢
    cases h
    rw [ite_withMem, ← State.chunkIn_last_congr agree rfl rfl, ← State.chunkIn_lastBlock_congr agree rfl rfl]
    cases root <;> rfl
  | parent root => cases h; cases root <;> rfl
  | commit =>
    rw [exec, execCommit_eq] at h ⊢
    cases h
    rw [ite_withMem, ite_withMem, State.commitFold_congr_chunk agree rfl rfl]
    rfl
  | finalize =>
    rw [exec, execFinalize_eq] at h ⊢
    cases h
    rw [ite_withMem, State.rootMaterial_congr_chunk agree rfl rfl]
    rfl
  | output =>
    rw [exec, execOutput_eq] at h ⊢
    cases h
    rw [ite_withMem]
    rfl

end Sys2Proof.Machine
end

section
/-! PROOFS. Set bits and trailing zeros of a chunk count, and the merges they stand for
(00_scope.md R11, 42_tree.md R155). -/

namespace Sys2Proof.Machine

/-! ## A number cut at bit `e` -/

/-- The digits from bit `e` on are bit `e` and those above it. -/
theorem div_two_pow_eq (n e : Nat) : n / 2 ^ e = 2 * (n / 2 ^ (e + 1)) + (n.testBit e).toNat := by
  rw [Nat.toNat_testBit, pow_succ, ← Nat.div_div_eq_div_mul, Nat.div_add_mod]

/-- The digits below bit `e + 1` are those below `e` and bit `e`. -/
theorem mod_two_pow_eq (n e : Nat) : n % 2 ^ (e + 1) = 2 ^ e * (n.testBit e).toNat + n % 2 ^ e := by
  rw [Nat.toNat_testBit, Nat.mod_pow_succ, Nat.add_comm]

/-- Where the digits from bit `e` on begin to count, against those from the next bit on. -/
theorem div_mul_two_pow_eq (n e : Nat) :
    n / 2 ^ e * 2 ^ e = n / 2 ^ (e + 1) * 2 ^ (e + 1) + 2 ^ e * (n.testBit e).toNat := by
  conv_lhs => rw [div_two_pow_eq]
  ring

/-- The set bits of a number put together of two. -/
theorem setBits_add_mul_two_pow {e r : Nat} (hr : r < 2 ^ e) (k h : Nat) :
    setBits (e + k) (r + 2 ^ e * h) = setBits e r + setBits k h := by
  induction e generalizing r with
  | zero =>
    obtain rfl : r = 0 := by simpa using hr
    simp [setBits]
  | succ e ih =>
    have odd : (r + 2 ^ (e + 1) * h) % 2 = r % 2 := by
      rw [pow_succ', mul_assoc, Nat.add_mul_mod_self_left]
    have half : (r + 2 ^ (e + 1) * h) / 2 = r / 2 + 2 ^ e * h := by
      rw [pow_succ', mul_assoc, Nat.add_mul_div_left _ _ (by decide)]
    rw [Nat.add_right_comm, setBits, setBits, odd, half, ih (by omega), Nat.add_assoc]

/-- A number below `2^e` has its set bits among the low `e`. -/
theorem setBits_eq_of_lt {e k n : Nat} (he : e ≤ k) (hn : n < 2 ^ e) : setBits k n = setBits e n := by
  have := setBits_add_mul_two_pow hn (k - e) 0
  rwa [Nat.add_sub_cancel' he, Nat.mul_zero, Nat.add_zero, setBits_zero, Nat.add_zero] at this

section
variable {k n : Nat} (hn : n < 2 ^ k)
include hn

theorem setBits_div_add_mod (e : Nat) : setBits k n = setBits k (n / 2 ^ e) + setBits k (n % 2 ^ e) := by
  rcases Nat.lt_or_ge k e with ke | ek
  · have small : n < 2 ^ e := hn.trans (Nat.pow_lt_pow_right (by decide) ke)
    rw [Nat.div_eq_of_lt small, Nat.mod_eq_of_lt small, setBits_zero, Nat.zero_add]
  · have low : n % 2 ^ e < 2 ^ e := Nat.mod_lt _ (Nat.two_pow_pos e)
    have high : n / 2 ^ e < 2 ^ (k - e) := by
      rwa [Nat.div_lt_iff_lt_mul (Nat.two_pow_pos e), ← pow_add, Nat.sub_add_cancel ek]
    have cut := setBits_add_mul_two_pow low (k - e) (n / 2 ^ e)
    rw [Nat.add_sub_cancel' ek, Nat.mod_add_div] at cut
    rw [cut, setBits_eq_of_lt ek low, setBits_eq_of_lt (Nat.sub_le k e) high, Nat.add_comm]

/-- The set bits from `e` on are bit `e` and those above it. -/
theorem setBits_div_two_pow (e : Nat) :
    setBits k (n / 2 ^ e) = setBits k (n / 2 ^ (e + 1)) + (n.testBit e).toNat := by
  have hk : n / 2 ^ e < 2 ^ k := (Nat.div_le_self _ _).trans_lt hn
  have bit : setBits k (n / 2 ^ e % 2) = n / 2 ^ e % 2 := by
    rcases k with _ | k
    · obtain h0 : n / 2 ^ e = 0 := by simpa using hk
      simp [h0, setBits]
    · rw [setBits, Nat.mod_mod, Nat.div_eq_of_lt (Nat.mod_lt _ (by decide)), setBits_zero, Nat.add_zero]
  have cut := setBits_div_add_mod hk 1
  rwa [Nat.div_div_eq_div_mul, pow_one, ← pow_succ, bit, ← Nat.toNat_testBit] at cut

/-- The set bits below `e + 1` are those below `e` and bit `e`. -/
theorem setBits_mod_two_pow (e : Nat) :
    setBits k (n % 2 ^ (e + 1)) = setBits k (n % 2 ^ e) + (n.testBit e).toNat := by
  have below := setBits_div_add_mod hn e
  have upTo := setBits_div_add_mod hn (e + 1)
  have bit := setBits_div_two_pow hn e
  omega

/-- Fewer set bits stand above a higher bit. -/
theorem setBits_div_two_pow_anti {d e : Nat} (h : d ≤ e) :
    setBits k (n / 2 ^ e) ≤ setBits k (n / 2 ^ d) := by
  have hk : n / 2 ^ d < 2 ^ k := (Nat.div_le_self _ _).trans_lt hn
  have cut := setBits_div_add_mod hk (e - d)
  rw [Nat.div_div_eq_div_mul, ← pow_add, Nat.add_sub_cancel' h] at cut
  omega

end

/-- The highest set bit of a number, and what it leaves below. -/
theorem div_mod_log2 {n : Nat} (h : n ≠ 0) :
    n / 2 ^ Nat.log2 n = 1 ∧ n / 2 ^ (Nat.log2 n + 1) = 0 ∧ 2 ^ Nat.log2 n + n % 2 ^ Nat.log2 n = n := by
  have low := Nat.log2_self_le h
  have high := Nat.lt_log2_self (n := n)
  have one : n / 2 ^ Nat.log2 n = 1 := by
    refine Nat.div_eq_of_lt_le (by rwa [Nat.one_mul]) ?_
    rwa [pow_succ'] at high
  have cut := Nat.div_add_mod n (2 ^ Nat.log2 n)
  rw [one, Nat.mul_one] at cut
  exact ⟨one, Nat.div_eq_of_lt high, cut⟩

/-! ## Trailing zeros, and how far adding one carries -/

/-- The trailing zeros of a successor are ones of the number, and a zero ends them
(42_tree.md R155). -/
theorem mod_of_trailingZeros_succ {k n : Nat} (h : n + 1 < 2 ^ k) :
    n % 2 ^ (trailingZeros k (n + 1) + 1) = 2 ^ trailingZeros k (n + 1) - 1 := by
  induction k generalizing n with
  | zero => simp at h
  | succ k ih =>
    rw [trailingZeros]
    split
    · next even =>
      rw [Nat.zero_add, pow_one, pow_zero]
      omega
    · next odd =>
      have half : (n + 1) / 2 = n / 2 + 1 := by omega
      have carry := ih (n := n / 2) (by omega)
      have pos := Nat.two_pow_pos (trailingZeros k (n / 2 + 1))
      rw [half, pow_succ' 2 (_ + 1), Nat.mod_mul, carry, pow_succ']
      omega

theorem mod_of_ctz64_succ {c : BitVec 64} (h : c ≠ BitVec.allOnes 64) :
    c.toNat % 2 ^ (ctz64 (c + 1) + 1) = 2 ^ ctz64 (c + 1) - 1 := by
  have lt := (c + 1).isLt
  unfold ctz64
  rw [toNat_succ h] at lt ⊢
  exact mod_of_trailingZeros_succ lt

section
variable {n d : Nat} (carry : n % 2 ^ (d + 1) = 2 ^ d - 1)
include carry

/-- The bits below the one that adding one carries to are set, and that one is clear. -/
theorem testBit_of_carry {e : Nat} (h : e ≤ d) : n.testBit e = decide (e < d) := by
  have bit := congrArg (·.testBit e) carry
  simpa [Nat.testBit_mod_two_pow, Nat.testBit_two_pow_sub_one, Nat.lt_succ_of_le h] using bit

theorem succ_mod_of_carry : (n + 1) % 2 ^ (d + 1) = 2 ^ d := by
  rw [← Nat.mod_add_mod, carry, Nat.sub_add_cancel (Nat.two_pow_pos d),
    Nat.mod_eq_of_lt (Nat.pow_lt_pow_right (by decide) (Nat.lt_succ_self d))]

/-- Of the bits up to the one that adding one carries to only that one is set after it. -/
theorem testBit_succ_of_carry {e : Nat} (h : e ≤ d) : (n + 1).testBit e = decide (d = e) := by
  have bit := congrArg (·.testBit e) (succ_mod_of_carry carry)
  simpa [Nat.testBit_mod_two_pow, Nat.testBit_two_pow, Nat.lt_succ_of_le h] using bit

/-- Adding one leaves the bits above the one it carries to. -/
theorem succ_div_of_carry {e : Nat} (h : d < e) : (n + 1) / 2 ^ e = n / 2 ^ e := by
  refine Nat.succ_div_of_not_dvd fun dvd => ?_
  have zero := Nat.mod_eq_zero_of_dvd ((pow_dvd_pow 2 (Nat.succ_le_of_lt h)).trans dvd)
  rw [succ_mod_of_carry carry] at zero
  exact (Nat.two_pow_pos d).ne' zero

/-- The set bits of a successor are the one that adding one carries to and those above it. -/
theorem eq_or_lt_of_testBit_succ {e : Nat} (bit : (n + 1).testBit e = true) :
    e = d ∨ (d < e ∧ n.testBit e = true) := by
  rcases Nat.lt_or_ge d e with above | upTo
  · rw [Nat.testBit_eq_decide_div_mod_eq, succ_div_of_carry carry above,
      ← Nat.testBit_eq_decide_div_mod_eq] at bit
    exact .inr ⟨above, bit⟩
  · rw [testBit_succ_of_carry carry upTo, decide_eq_true_eq] at bit
    exact .inl bit.symm

end

/-- A count that is not `2^64 - 1` as a number is not the largest word. -/
theorem ne_allOnes_of_toNat_ne {c : BitVec 64} (h : c.toNat ≠ 2 ^ 64 - 1) : c ≠ BitVec.allOnes 64 := by
  rintro rfl
  exact h rfl

/-- Settles O26, by the set bits that adding one clears and sets. -/
theorem mergesNeverExceedTheStack : Obligations.MergesNeverExceedTheStack := by
  intro c notLargest
  have ne := ne_allOnes_of_toNat_ne notLargest
  have le := ctz64_le_popcount64 ne
  have sum := popcount64_succ ne
  exact ⟨le, by omega⟩

end Sys2Proof.Machine
end

section
/-! PROOFS. INIT, PARENT, and the checks of COMMIT and FINALIZE (42_tree.md). -/

namespace Sys2Proof.Machine

/-! ## INIT and PARENT (42_tree.md R151, R153) -/

/-- Settles O16, by INIT's one outcome. -/
theorem initLatchesTheMode : Obligations.InitLatchesTheMode := by
  intro s
  refine ⟨modeKeyCv s.regs.mode s.regs.key, modeFlags s.regs.mode, ?_, ?_, ?_, ?_, execInit_eq s⟩ <;>
  · intro mode
    rw [mode]
    exact ⟨rfl, rfl⟩

/-- The two children of PARENT, put together, are the message `M` (42_tree.md R153). -/
theorem joinCvs_children (s : State) : joinCvs s.leftChild s.rightChild = s.regs.m := by
  apply Vector.ext
  intro i hi
  refine (Vector.getElem_append (xs := s.leftChild) (ys := s.rightChild) hi).trans ?_
  split
  · exact cvOf_getElem _ _ _
  · next right => simp [State.rightChild, Nat.sub_add_cancel (Nat.not_lt.1 right)]

theorem parentMaterial_children (s : State) (root : Bool) :
    s.tree.parentMaterial s.leftChild s.rightChild root =
      { cv := s.tree.keyCv, m := s.regs.m, blen := 64
        flags := s.tree.baseFlags ||| if root then 0x0C else 0x04 } := by
  unfold Tree.parentMaterial parentFlags
  rw [joinCvs_children, BitVec.or_assoc]
  cases root <;> rfl

/-- Settles O17, by the material of PARENT in either form. -/
theorem parentCompressesItsChildren : Obligations.ParentCompressesItsChildren := by
  intro s
  refine ⟨?plain, ?root⟩ <;>
  · rw [exec, execParent_eq, Tree.parent, parentMaterial_children]
    rfl

/-! ## The checks of COMMIT and FINALIZE (42_tree.md R157, R160) -/

/-- Settles O19: the length is checked before the count. -/
theorem commitChecksLengthThenCount : Obligations.CommitChecksLengthThenCount := by
  refine ⟨fun s badLength => ?_, fun s length largest => ?_⟩
  · rw [exec, execCommit_eq, if_pos badLength]
    rfl
  · have count : s.tree.chunkCount = BitVec.allOnes 64 := BitVec.eq_of_toNat_eq largest
    rw [exec, execCommit_eq, if_neg (not_not.2 length), if_pos count]
    rfl

/-- Settles O22: both causes are the check FINALIZE makes first. -/
theorem finalizeChecksTheLength : Obligations.FinalizeChecksTheLength := by
  intro s cause
  have bad : 1024 < s.regs.chunkLen.toNat ∨ (s.tree.chunkCount ≠ 0 ∧ s.regs.chunkLen = 0) := by
    refine cause.imp_right (And.imp_left ?_)
    rintro committed zero
    simp [zero] at committed
  rw [exec, execFinalize_eq, if_pos bad]
  rfl

/-- A length that FINALIZE accepts is none of its two errors. -/
theorem tail_ok {s : State} (len : s.regs.chunkLen.toNat ≤ 1024)
    (nonempty : s.tree.chunkCount ≠ 0 → s.regs.chunkLen ≠ 0) :
    ¬ (1024 < s.regs.chunkLen.toNat ∨ (s.tree.chunkCount ≠ 0 ∧ s.regs.chunkLen = 0)) :=
  not_or.2 ⟨Nat.not_lt.2 len, fun ⟨committed, empty⟩ => nonempty committed empty⟩

/-- FINALIZE of a chunk whose length it accepts makes the root material (42_tree.md R160). -/
theorem execFinalize_ok {s : State} (len : s.regs.chunkLen.toNat ≤ 1024)
    (nonempty : s.tree.chunkCount ≠ 0 → s.regs.chunkLen ≠ 0) :
    exec .finalize s = .next
      (((s.setOut (s.rootMaterial.compress s.rootCounter)).setMaterial s.rootMaterial).complete
        .none) := by
  rw [exec, execFinalize_eq, if_neg (tail_ok len nonempty)]

/-- What FINALIZE writes is a function of the tree, the input registers and the buffer, with OUT, the
material and its valid bit as they were where it ends in an error. -/
theorem execFinalize_writes {s t : State} (h : exec .finalize s = .next t) :
    (t.out, t.om, t.omv) =
      if 1024 < s.regs.chunkLen.toNat ∨ (s.tree.chunkCount ≠ 0 ∧ s.regs.chunkLen = 0) then
        (s.out, s.om, s.omv)
      else (s.rootMaterial.compress s.rootCounter, s.rootMaterial, true) := by
  rw [exec, execFinalize_eq] at h
  cases h
  split <;> rfl

/-- Settles O24: FINALIZE leaves all that its result is a function of. -/
theorem finalizeCanBeRepeated : Obligations.FinalizeCanBeRepeated := by
  intro s t first
  have tree := exec_tree_same (by decide) (by decide) first
  obtain ⟨frame, _, buf⟩ := exec_frame first
  have regs : t.regs = s.regs := by rw [frame]
  refine ⟨tree, buf, fun u second => ?_⟩
  have same : (u.out, u.om, u.omv) = (t.out, t.om, t.omv) := by
    rw [execFinalize_writes second, State.rootMaterial_congr tree regs (funext buf), State.rootCounter,
      tree, regs, execFinalize_writes first, State.rootCounter]
    split <;> rfl
  simpa using same

end Sys2Proof.Machine
end

section
/-! PROOFS. The invariant, kept by every event (42_tree.md R154, R165, 43_output.md R180, R191,
30_encoding.md R83). -/

namespace Sys2Proof.Machine

/-! ## What the host does (20_memory.md R64, R65) -/

/-- The part of the invariant that speaks of the memory and STATUS, which a host access can change. -/
structure State.HostInv (s : State) : Prop where
  mem_wf : Memory.wf s.draws s.mem = true
  busy_clear : s.busy = true → s.status.done = false ∧ s.status.err = false ∧ s.status.errCode = .none
  err_iff_code : s.status.err = true ↔ s.status.errCode ≠ .none

theorem State.Inv.hostInv {s : State} (inv : s.Inv) : s.HostInv :=
  ⟨inv.mem_wf, inv.busy_clear, inv.err_iff_code⟩

/-- The rest of the invariant speaks of the internal state only. -/
theorem State.Inv.of_internal {s t : State} (inv : s.Inv) (tree : t.tree = s.tree) (om : t.om = s.om)
    (omv : t.omv = s.omv) (host : t.HostInv) : t.Inv where
  sp_popcount := tree ▸ inv.sp_popcount
  flags_of_mode := tree ▸ inv.flags_of_mode
  key_of_mode := tree ▸ inv.key_of_mode
  om_blen_le := om ▸ inv.om_blen_le
  om_root := by rw [om, omv]; exact inv.om_root
  om_mode := by rw [om, omv, tree]; exact inv.om_mode
  mem_wf := host.mem_wf
  busy_clear := host.busy_clear
  err_iff_code := host.err_iff_code

/-- A store leaves the memory canonical. -/
theorem storeReg_mem_wf {s : State} (canonical : Memory.wf s.draws s.mem = true) (r : Reg) (v : Word) :
    Memory.wf s.draws (s.storeReg r v).mem = true := by
  cases r
  case buf w => exact State.setBufWord_wf canonical w.isLt v
  all_goals exact canonical

theorem State.HostInv.storeReg {s : State} (inv : s.HostInv) (r : Reg) (v : Word) :
    (s.storeReg r v).HostInv := by
  have mem := storeReg_mem_wf inv.mem_wf r v
  obtain ⟨regs, mem', store⟩ := s.storeReg_eq r v
  rw [store] at mem ⊢
  exact ⟨mem, inv.busy_clear, inv.err_iff_code⟩

/-- Acknowledging clears ERR and its code together. -/
theorem State.HostInv.writeStatus {s : State} (inv : s.HostInv) (v : Word) :
    (s.writeStatus v).HostInv where
  mem_wf := inv.mem_wf
  busy_clear busy := by
    obtain ⟨done, err, errCode⟩ := inv.busy_clear busy
    simp [done, err, errCode]
  err_iff_code := by
    have := inv.err_iff_code
    cases hv : v[2] <;> simp [hv, this]

theorem State.HostInv.issue {s : State} (inv : s.HostInv) (c : Word) : (s.issue c).HostInv where
  mem_wf := inv.mem_wf
  busy_clear _ := ⟨rfl, rfl, rfl⟩
  err_iff_code := by simp

theorem State.HostInv.writeReg {s : State} (inv : s.HostInv) (r : Reg) (v : Word) :
    (s.writeReg r v).HostInv := by
  rcases s.writeReg_cases r v with h | ⟨_, h⟩ | ⟨_, h⟩ | ⟨_, h⟩ | ⟨_, _, h⟩ | ⟨_, h⟩ <;> rw [h]
  · exact inv
  · exact inv.writeStatus v
  · exact ⟨inv.mem_wf, inv.busy_clear, inv.err_iff_code⟩
  · exact ⟨inv.mem_wf, inv.busy_clear, inv.err_iff_code⟩
  · exact inv.issue v
  · exact inv.storeReg r v

/-! ## What a completion does (30_encoding.md R84) -/

/-- A completion sets ERR with an error's code, and nothing is pending after it. -/
theorem State.HostInv.complete {s : State} (inv : s.HostInv) (code : ErrCode) :
    (s.complete code).HostInv where
  mem_wf := inv.mem_wf
  busy_clear busy := by simp [State.busy] at busy
  err_iff_code := by
    have := inv.err_iff_code
    by_cases noError : code = .none <;> simp [noError, this]

theorem State.HostInv.exec {i : Instr} {s t : State} (inv : s.HostInv) (h : exec i s = .next t) :
    t.HostInv := by
  obtain ⟨code, out, tree, om, omv, next, _⟩ := exec_shape i s
  rw [next] at h
  cases h
  have written : ({ s with out := out, tree := tree, om := om, omv := omv } : State).HostInv :=
    ⟨inv.mem_wf, inv.busy_clear, inv.err_iff_code⟩
  exact written.complete code

/-- A mode whose key is not the host's has the IV (42_tree.md R150). -/
theorem modeKeyCv_of_plain {md : BitVec 2} (key : Cv) (h : md = 0 ∨ md = 2) : modeKeyCv md key = IV :=
  if_pos h

section
variable {i : Instr} {s t : State} (inv : s.Inv) (h : exec i s = .next t)
include inv h

/-- A command leaves the stack pointer at the population count of the count (42_tree.md R165). -/
theorem State.Inv.exec_sp : t.tree.sp.toNat = popcount64 t.tree.chunkCount := by
  rcases exec_tree h with same | ⟨_, init⟩ | ⟨_, _, notLargest, push⟩
  · rw [same]
    exact inv.sp_popcount
  · rw [init]
    exact popcount64_zero.symm
  · rw [push]
    exact s.commitFold_sp inv.sp_popcount notLargest

/-- A command leaves a mode state that is a mode's (42_tree.md R150). -/
theorem State.Inv.exec_mode : t.tree.baseFlags = modeFlags t.tree.lmode ∧
    (t.tree.lmode = 0 ∨ t.tree.lmode = 2 → t.tree.keyCv = IV) := by
  rcases exec_tree h with same | ⟨_, init⟩ | ⟨_, _, _, push⟩
  · rw [same]
    exact ⟨inv.flags_of_mode, inv.key_of_mode⟩
  · rw [init]
    exact ⟨rfl, modeKeyCv_of_plain _⟩
  · rw [push]
    exact ⟨inv.flags_of_mode, inv.key_of_mode⟩

/-- A command leaves an output material that is short enough, and that has ROOT and the mode's base
flags where it is valid (43_output.md R180, R191). -/
theorem State.Inv.exec_om : t.om.blen.toNat ≤ 64 ∧ (t.omv = true →
    t.om.flags.getLsbD 3 = true ∧ t.om.flags &&& t.tree.baseFlags = t.tree.baseFlags) := by
  by_cases isInit : i = .init
  · subst isInit
    cases h
    exact ⟨inv.om_blen_le, fun valid => nomatch valid⟩
  have base : t.tree.baseFlags = s.tree.baseFlags := by
    rcases exec_tree h with same | ⟨init, _⟩ | ⟨_, _, _, push⟩
    · rw [same]
    · exact absurd init isInit
    · rw [push]; rfl
  rw [base]
  rcases exec_material h with ⟨om, omv⟩ | ⟨init, _⟩ | ⟨_, _, blen, root, mode⟩
  · rw [om, omv]
    exact ⟨inv.om_blen_le, fun valid => ⟨inv.om_root valid, inv.om_mode valid⟩⟩
  · exact absurd init isInit
  · exact ⟨blen, fun _ => ⟨root, mode⟩⟩

theorem State.Inv.exec : t.Inv := by
  obtain ⟨flags, key⟩ := inv.exec_mode h
  obtain ⟨blen, om⟩ := inv.exec_om h
  obtain ⟨mem, busy, err⟩ := inv.hostInv.exec h
  exact ⟨inv.exec_sp h, flags, key, blen, fun valid => (om valid).1, mem, busy, err,
    fun valid => (om valid).2⟩

end

theorem State.Inv.executeWord {c : Word} {s t : State} (inv : s.Inv) (h : executeWord c s = .next t) :
    t.Inv := by
  rcases executeWord_cases c s with ⟨i, _, command⟩ | ⟨_, _, illegal⟩
  · exact inv.exec (command ▸ h)
  · rw [illegal] at h
    cases h
    exact inv.of_internal rfl rfl rfl (inv.hostInv.complete _)

/-! ## Events and steps -/

/-- The reset state meets the invariant, whatever the free values it draws (70_reset_and_hazards.md
R231; that om_blen is at most 64 there is log 4). -/
theorem afterReset_inv (draw : Nat) (inputs : List Event) : (State.afterReset draw inputs).Inv where
  sp_popcount := popcount64_zero.symm
  flags_of_mode := rfl
  key_of_mode _ := rfl
  om_blen_le := by
    have drawn := (Config.omBlenReset draw).isLt
    simp only [State.afterReset, BitVec.toNat_ofNat]
    omega
  om_root valid := nomatch valid
  mem_wf := rfl
  busy_clear busy := nomatch busy
  err_iff_code := by simp [State.afterReset]
  om_mode valid := nomatch valid

theorem State.Inv.happen {e : Event} {s t : State} (inv : s.Inv) (h : happen e s = .next t) : t.Inv := by
  rcases happen_cases h with ⟨_, _, _, _, rfl⟩ | ⟨off, _, v, _, _, rfl⟩ | ⟨_, _, rfl⟩ |
    ⟨c, _, _, completion⟩ | ⟨_, rfl⟩
  · exact inv.of_internal rfl rfl rfl ⟨inv.mem_wf, inv.busy_clear, inv.err_iff_code⟩
  · obtain ⟨tree, om, omv, _⟩ := writeReg_internal s (regAt off) v
    exact inv.of_internal tree om omv (inv.hostInv.writeReg _ v)
  · exact inv
  · exact inv.executeWord completion
  · exact afterReset_inv _ _

/-- Taking an event off the list is no matter of the invariant. -/
theorem State.Inv.withInputs {s : State} (inv : s.Inv) (inputs : List Event) :
    ({ s with inputs := inputs } : State).Inv :=
  inv.of_internal rfl rfl rfl ⟨inv.mem_wf, inv.busy_clear, inv.err_iff_code⟩

/-- Settles O51: a step is one event, and every event keeps the invariant. -/
theorem everyStepKeepsTheInvariant : Obligations.EveryStepKeepsTheInvariant := by
  intro s t inv h
  rcases step_cases h with ⟨_, turn⟩ | ⟨e, rest, _, event⟩
  · exact inv.happen turn
  · exact (inv.withInputs rest).happen event

end Sys2Proof.Machine
end

section
/-! PROOFS. COMMIT's and FINALIZE's folds as pops and pushes of the stack (42_tree.md R155, R159). -/

namespace Sys2Proof.Machine

/-! ## The stack as a list, the top first -/

/-- The lowest `n` stack entries, the highest of them first. -/
def State.entriesBelow (s : State) (n : Nat) : List Cv := (List.range n).reverse.map s.stackEntry

theorem State.liveStack_eq (s : State) : s.liveStack = s.entriesBelow s.tree.sp.toNat := rfl

@[simp] theorem State.entriesBelow_zero (s : State) : s.entriesBelow 0 = [] := rfl

@[simp] theorem State.entriesBelow_succ (s : State) (n : Nat) :
    s.entriesBelow (n + 1) = s.stackEntry n :: s.entriesBelow n := by
  simp [State.entriesBelow, List.range_succ]

theorem State.entriesBelow_congr {s t : State} {n : Nat}
    (h : ∀ k < n, t.stackEntry k = s.stackEntry k) : t.entriesBelow n = s.entriesBelow n :=
  List.map_congr_left fun k hk => h k (by simpa using hk)

/-- What a push puts on the stack. -/
theorem stackEntry_push_top {s t : State} {acc : Cv} {sp : BitVec 7} (push : t.tree = s.tree.push acc sp)
    (room : sp.toNat < 64) : t.stackEntry sp.toNat = acc := by
  simp [State.stackEntry, push, Tree.push, room]

/-- A push puts its CV on top of the entries below its place, where there is room. -/
theorem liveStack_push {s t : State} {acc : Cv} {sp : BitVec 7} (push : t.tree = s.tree.push acc sp)
    (room : sp.toNat < 64) : t.liveStack = acc :: s.entriesBelow sp.toNat := by
  have top : t.tree.sp.toNat = sp.toNat + 1 := by
    rw [push, Tree.push, BitVec.toNat_add, Nat.mod_eq_of_lt (by simp; omega)]
    rfl
  rw [State.liveStack_eq, top, State.entriesBelow_succ, stackEntry_push_top push room,
    State.entriesBelow_congr fun k hk => stackEntry_of_push push hk.ne]

/-! ## COMMIT (42_tree.md R155, R157) -/

/-- Merging with the top of the stack as left sibling is popping two CVs and pushing their parent,
where the CV just computed stands on top. -/
theorem popMerge_eq_mergeTop (s : State) {n : Nat} {sp : BitVec 7} (res : Block) (h : n ≤ sp.toNat) :
    s.tree.popMerge n (cvOf res :: s.entriesBelow sp.toNat) =
      cvOf (s.mergeTop n res sp).1 :: s.entriesBelow (s.mergeTop n res sp).2.toNat := by
  induction n generalizing sp res with
  | zero => rfl
  | succ n ih =>
    have below := toNat_pred (sp := sp) (by omega)
    have top : sp.toNat = (sp - 1).toNat + 1 := by omega
    rw [top, State.entriesBelow_succ, Tree.popMerge, State.mergeTop_succ]
    exact ih _ (by omega)

/-- COMMIT of a full chunk below the largest count. -/
theorem execCommit_ok {s : State} (full : s.regs.chunkLen = 1024)
    (notLargest : s.tree.chunkCount ≠ BitVec.allOnes 64) :
    exec .commit s = .next
      (({ s with tree := s.tree.push (cvOf s.commitFold.1) s.commitFold.2 }.setOut
        s.commitFold.1).complete .none) := by
  rw [exec, execCommit_eq, if_neg (not_not.2 full), if_neg notLargest]

/-- COMMIT's merges leave room for the push (42_tree.md R165). -/
theorem commitFold_room {s : State} (hsp : s.tree.sp.toNat = popcount64 s.tree.chunkCount)
    (notLargest : s.tree.chunkCount ≠ BitVec.allOnes 64) :
    s.commitFold.2.toNat + 1 = popcount64 (s.tree.chunkCount + 1) ∧ s.commitFold.2.toNat < 64 := by
  have le := ctz64_le_popcount64 notLargest
  have sum := popcount64_succ notLargest
  have after : s.commitFold.2.toNat = s.tree.sp.toNat - ctz64 (s.tree.chunkCount + 1) :=
    s.mergeTop_sp _ (by omega)
  have := popcount64_le (s.tree.chunkCount + 1)
  omega

/-- Settles O18: COMMIT's merges are the list's, and its push puts the last CV on top. -/
theorem commitPushesThenMerges : Obligations.CommitPushesThenMerges := by
  intro s hsp full notLargest
  obtain ⟨_, room⟩ := commitFold_room hsp notLargest
  have merges : ctz64 (s.tree.chunkCount + 1) ≤ s.tree.sp.toNat := hsp ▸ ctz64_le_popcount64 notLargest
  refine ⟨_, execCommit_ok full notLargest, ?stack, ?top, s.commitFold_sp hsp notLargest, rfl, rfl⟩ <;>
    rw [liveStack_push rfl room]
  case stack => exact (popMerge_eq_mergeTop s _ merges).symm
  case top => rfl

/-! ## FINALIZE (42_tree.md R158 to R160) -/

/-- Popping two CVs and pushing their parent until two are left is walking the stack down to its
base. -/
theorem popRoot_eq_foldDown (s : State) (n : Nat) (acc : Cv) :
    s.tree.popRoot (n + 2) (acc :: s.entriesBelow (n + 1)) =
      some (s.tree.parentMaterial (s.stackEntry 0) (s.foldDown n acc) true) := by
  induction n generalizing acc with
  | zero => rfl
  | succ n ih =>
    rw [State.entriesBelow_succ, State.entriesBelow_succ, Tree.popRoot, ← State.entriesBelow_succ]
    · exact ih _
    · simp

theorem rootMaterial_lone {s : State} (empty : s.tree.sp = 0) :
    s.rootMaterial = (s.chunkIn s.tree.chunkCount true).lastBlock := if_pos empty

theorem rootMaterial_merge {s : State} (nonempty : s.tree.sp ≠ 0) :
    s.rootMaterial = s.tree.parentMaterial (s.stackEntry 0)
      (s.foldDown (s.tree.sp.toNat - 1) (cvOf (s.chunkIn s.tree.chunkCount false).last)) true :=
  if_neg nonempty

/-- Settles O21: FINALIZE's root material is the lone chunk's last block, or what the pops merge
last. The bound on `sp` is not needed: both forms read the same entries. -/
theorem finalizeGivesTheRootOfTheStack : Obligations.FinalizeGivesTheRootOfTheStack := by
  intro s len nonempty _
  refine ⟨s.rootMaterial, s.rootCounter, fun lone => ?lone, fun stacked => ?merge,
    execFinalize_ok len nonempty⟩
  case lone => exact ⟨if_pos lone, rootMaterial_lone lone⟩
  case merge =>
    obtain ⟨n, top⟩ : ∃ n, s.tree.sp.toNat = n + 1 :=
      Nat.exists_eq_succ_of_ne_zero fun zero => stacked (BitVec.eq_of_toNat_eq zero)
    rw [rootMaterial_merge stacked, State.liveStack_eq, top]
    exact ⟨if_neg stacked, popRoot_eq_foldDown s n _⟩

end Sys2Proof.Machine
end

section
/-! PROOFS. The stack as the complete subtrees of the committed chunks (42_tree.md R154, R164). -/

namespace Sys2Proof.Machine

/-! ## The CVs of trees -/

/-- Parent compressions, and with them the CVs of subtrees, depend on the mode only. -/
theorem parent_congr {t u : Tree} (key : t.keyCv = u.keyCv) (base : t.baseFlags = u.baseFlags)
    (left right : Cv) (root : Bool) : t.parent left right root = u.parent left right root := by
  unfold Tree.parent Tree.parentMaterial
  rw [key, base]

theorem subtreeCv_congr {t u : Tree} (key : t.keyCv = u.keyCv) (base : t.baseFlags = u.baseFlags)
    (leaf : Nat → Cv) (e lo : Nat) : t.subtreeCv leaf e lo = u.subtreeCv leaf e lo := by
  induction e generalizing lo with
  | zero => rfl
  | succ e ih =>
    rw [Tree.subtreeCv, Tree.subtreeCv, ih, ih, parent_congr key base]

section
variable (t : Tree) (leaf : Nat → Cv) (fuel lo : Nat)

theorem treeCv_one : t.treeCv leaf fuel lo 1 = leaf lo := by cases fuel <;> rfl

/-- The left child of more than `2^e` chunks, and at most twice as many, is the complete subtree of
`2^e` (42_tree.md R164). -/
theorem treeCv_two_pow_add {e r : Nat} (hr : r < 2 ^ e) : t.treeCv leaf (fuel + 1) lo (2 ^ e + r + 1) =
    cvOf (t.parent (t.subtreeCv leaf e lo) (t.treeCv leaf fuel (lo + 2 ^ e) (r + 1)) false) := by
  have pos := Nat.two_pow_pos e
  have log : Nat.log2 (2 ^ e + r + 1 - 1) = e :=
    (Nat.log2_eq_iff (by omega)).2 ⟨Nat.le_add_right _ _, by rw [pow_succ]; omega⟩
  have rest : 2 ^ e + r + 1 - 2 ^ e = r + 1 := by omega
  rw [Tree.treeCv, if_neg (by omega)]
  simp only [log, rest]

end

/-- The chunk in the buffer, as a leaf of the chunks of an input. -/
theorem chunkIn_last_eq_leafCv {s : State} {chunks : Nat → Nat → Byte} (full : s.regs.chunkLen = 1024)
    (next : ∀ k < 1024, s.buf k = chunks s.tree.chunkCount.toNat k) :
    cvOf (s.chunkIn s.tree.chunkCount false).last = s.tree.leafCv chunks s.tree.chunkCount.toNat := by
  have len : s.regs.chunkLen.toNat = 1024 := by rw [full]; rfl
  refine congrArg cvOf (ChunkIn.last_congr len rfl ?_ rfl rfl fun k hk => next k (len ▸ hk))
  exact ((BitVec.ofNat_toNat 64 _).trans (BitVec.setWidth_eq _)).symm

section
variable {s : State} {leaf : Nat → Cv} (holds : s.HoldsSubtrees leaf) {c : Nat}
  (count : s.tree.chunkCount.toNat = c)
include holds count

/-- The entry of a set bit, in numbers: it begins at the chunk that the higher bits of the count make,
and stands above as many entries as they are (42_tree.md R154). -/
theorem State.HoldsSubtrees.entry {e : Nat} (he : e < 64) (bit : c.testBit e = true) :
    s.stackEntry (setBits 64 (c / 2 ^ (e + 1))) =
      s.tree.subtreeCv leaf e (c / 2 ^ (e + 1) * 2 ^ (e + 1)) := by
  subst count
  exact holds e he ((BitVec.testBit_toNat _).symm.trans bit)

/-! ## COMMIT (42_tree.md R154, R157) -/

/-- COMMIT's merges carry the CV of a complete subtree that ends with the new chunk: from one of `2^n`
chunks, a merge with the entry of each set bit from `n` on makes one twice as large. -/
theorem State.HoldsSubtrees.mergeTop {m n : Nat} {res : Block} {sp : BitVec 7} (small : n + m ≤ 64)
    (ones : ∀ e < n + m, c.testBit e = true) (top : sp.toNat = setBits 64 (c / 2 ^ n))
    (acc : cvOf res = s.tree.subtreeCv leaf n (c / 2 ^ n * 2 ^ n)) :
    cvOf (s.mergeTop m res sp).1 = s.tree.subtreeCv leaf (n + m) (c / 2 ^ (n + m) * 2 ^ (n + m)) ∧
      (s.mergeTop m res sp).2.toNat = setBits 64 (c / 2 ^ (n + m)) := by
  induction m generalizing n res sp with
  | zero => exact ⟨acc, top⟩
  | succ m ih =>
    have bit := ones n (by omega)
    have left := holds.entry count (by omega) bit
    rw [setBits_div_two_pow (count ▸ s.tree.chunkCount.isLt), bit, Bool.toNat_true] at top
    have below : (sp - 1).toNat = setBits 64 (c / 2 ^ (n + 1)) := by
      rw [toNat_pred (by omega), top, Nat.add_sub_cancel]
    rw [div_mul_two_pow_eq, bit, Bool.toNat_true, Nat.mul_one] at acc
    rw [Nat.add_comm m 1, ← Nat.add_assoc] at small ones ⊢
    rw [Nat.add_comm 1 m, State.mergeTop_succ]
    refine ih small ones below ?_
    rw [below, left, acc]
    rfl

/-- What COMMIT pushes is the CV of the complete subtree of the lowest set bit of the new count, above
as many entries as the count has higher set bits. -/
theorem State.HoldsSubtrees.commitFold (hsp : s.tree.sp.toNat = popcount64 s.tree.chunkCount)
    (new : cvOf (s.chunkIn s.tree.chunkCount false).last = leaf c) {d : Nat}
    (merges : ctz64 (s.tree.chunkCount + 1) = d) (small : d ≤ 64) (carry : c % 2 ^ (d + 1) = 2 ^ d - 1) :
    cvOf s.commitFold.1 = s.tree.subtreeCv leaf d (c / 2 ^ (d + 1) * 2 ^ (d + 1)) ∧
      s.commitFold.2.toNat = setBits 64 (c / 2 ^ (d + 1)) := by
  have isLt : c < 2 ^ 64 := count ▸ s.tree.chunkCount.isLt
  have clear : c.testBit d = false := (testBit_of_carry carry (Nat.le_refl d)).trans (by simp)
  have ones : ∀ e < 0 + d, c.testBit e = true := by
    intro e he
    rw [Nat.zero_add] at he
    rw [testBit_of_carry carry he.le, decide_eq_true he]
  have top : s.tree.sp.toNat = setBits 64 (c / 2 ^ 0) := by
    rw [hsp, popcount64, count, pow_zero, Nat.div_one]
  have begins := div_mul_two_pow_eq c d
  have counted := setBits_div_two_pow isLt d
  simp only [clear, Bool.toNat_false, Nat.mul_zero, Nat.add_zero] at begins counted
  have fold := holds.mergeTop count (res := (s.chunkIn s.tree.chunkCount false).last)
    ((Nat.zero_add d).trans_le small) ones top (by rw [new, pow_zero, Nat.div_one, Nat.mul_one]; rfl)
  rw [Nat.zero_add, begins, counted] at fold
  rwa [State.commitFold, merges]

end

/-- COMMIT keeps the entries of the stack the complete subtrees: the one it pushes is that of the new
count's lowest set bit, and those of the bits above are as before. -/
theorem State.HoldsSubtrees.commit {s t : State} {leaf : Nat → Cv} (holds : s.HoldsSubtrees leaf)
    (hsp : s.tree.sp.toNat = popcount64 s.tree.chunkCount)
    (notLargest : s.tree.chunkCount ≠ BitVec.allOnes 64)
    (new : cvOf (s.chunkIn s.tree.chunkCount false).last = leaf s.tree.chunkCount.toNat)
    (push : t.tree = s.tree.push (cvOf s.commitFold.1) s.commitFold.2) : t.HoldsSubtrees leaf := by
  intro e he bit
  have carry := mod_of_ctz64_succ notLargest
  have small := (ctz64_le_popcount64 notLargest).trans (popcount64_le _)
  obtain ⟨acc, height⟩ := holds.commitFold rfl hsp new rfl small carry
  have count : t.tree.chunkCount.toNat = s.tree.chunkCount.toNat + 1 := by
    rw [push]
    exact toNat_succ notLargest
  have mode : t.tree.subtreeCv leaf = s.tree.subtreeCv leaf := by
    funext e lo
    exact subtreeCv_congr (by rw [push]; rfl) (by rw [push]; rfl) leaf e lo
  rw [← BitVec.testBit_toNat, count] at bit
  rw [count, mode]
  rcases eq_or_lt_of_testBit_succ carry bit with rfl | ⟨above, old⟩
  · rw [succ_div_of_carry carry (Nat.lt_succ_self _), ← height, ← acc]
    exact stackEntry_push_top push (commitFold_room hsp notLargest).2
  · rw [succ_div_of_carry carry (Nat.lt_succ_of_lt above), ← holds.entry rfl he old]
    refine stackEntry_of_push push (Nat.ne_of_lt ?_)
    have counted := setBits_div_two_pow s.tree.chunkCount.isLt e
    have fewer := setBits_div_two_pow_anti s.tree.chunkCount.isLt (Nat.succ_le_of_lt above)
    rw [old, Bool.toNat_true] at counted
    rw [height]
    exact (Nat.lt_of_lt_of_eq (Nat.lt_succ_self _) counted.symm).trans_le fewer

/-- Settles O20: COMMIT keeps the complete subtrees, over the leaves of the chunks committed. -/
theorem commitKeepsTheCompleteSubtrees : Obligations.CommitKeepsTheCompleteSubtrees := by
  intro s chunks hsp holds full notLargest next
  exact ⟨_, execCommit_ok full notLargest, toNat_succ notLargest, rfl,
    holds.commit hsp notLargest (chunkIn_last_eq_leafCv full next) rfl⟩

/-! ## FINALIZE (42_tree.md R159, R164) -/

/-- FINALIZE's merge of a CV with an entry of the stack as left sibling (42_tree.md R159). -/
def State.mergeWith (s : State) (k : Nat) (acc : Cv) : Cv :=
  cvOf (s.tree.parent (s.stackEntry k) acc false)

/-- The walk down the stack, as a fold over the entries it reads, the lowest one outermost. -/
theorem foldDown_eq_foldr (s : State) (n : Nat) (acc : Cv) :
    s.foldDown n acc = (List.range' 1 n).foldr s.mergeWith acc := by
  induction n generalizing acc with
  | zero => rfl
  | succ n ih =>
    rw [List.range'_concat, List.foldr_append, State.foldDown, ih, Nat.one_mul, Nat.add_comm 1 n]
    rfl

section
variable {s : State} {leaf : Nat → Cv} (holds : s.HoldsSubtrees leaf) {c : Nat}
  (count : s.tree.chunkCount.toNat = c)
include holds count

/-- Folding the CV of chunk `c` through the entries of the set bits below `e` makes the left-leaning
tree of the chunks those bits count and chunk `c`. -/
theorem State.HoldsSubtrees.foldr_mergeWith {e fuel : Nat} (he : e ≤ 64) (enough : e ≤ fuel) :
    (List.range' (setBits 64 (c / 2 ^ e)) (setBits 64 (c % 2 ^ e))).foldr s.mergeWith (leaf c) =
      s.tree.treeCv leaf fuel (c / 2 ^ e * 2 ^ e) (c % 2 ^ e + 1) := by
  have isLt : c < 2 ^ 64 := count ▸ s.tree.chunkCount.isLt
  induction e generalizing fuel with
  | zero =>
    rw [pow_zero, Nat.mod_one, setBits_zero, Nat.div_one, Nat.mul_one, Nat.zero_add, treeCv_one]
    rfl
  | succ e ih =>
    have above := setBits_div_two_pow isLt e
    have begins := div_mul_two_pow_eq c e
    cases bit : c.testBit e with
    | false =>
      simp only [bit, Bool.toNat_false, Nat.mul_zero, Nat.add_zero] at above begins
      rw [setBits_mod_two_pow isLt, mod_two_pow_eq, bit, Bool.toNat_false, Nat.mul_zero, Nat.zero_add,
        Nat.add_zero (setBits _ _), ← above, ← begins]
      exact ih (Nat.le_of_succ_le he) (Nat.le_of_succ_le enough)
    | true =>
      obtain ⟨fuel, rfl⟩ : ∃ f, fuel = f + 1 := Nat.exists_eq_add_one.2 (Nat.zero_lt_of_lt enough)
      simp only [bit, Bool.toNat_true, Nat.mul_one] at above begins
      rw [setBits_mod_two_pow isLt, mod_two_pow_eq, bit, Bool.toNat_true, Nat.mul_one,
        List.range'_succ, List.foldr_cons, ← above,
        ih (Nat.le_of_succ_le he) (Nat.le_of_succ_le_succ enough), State.mergeWith,
        holds.entry count he bit, treeCv_two_pow_add _ _ _ _ (Nat.mod_lt _ (Nat.two_pow_pos e)), begins]

/-- The base of the stack is the subtree of the count's highest bit, and the walk down to it makes the
tree of the chunks after those (42_tree.md R164). -/
theorem State.HoldsSubtrees.rootMaterial (hsp : s.tree.sp.toNat = popcount64 s.tree.chunkCount)
    (committed : c ≠ 0) (stacked : s.tree.sp ≠ 0)
    (tail : leaf c = cvOf (s.chunkIn s.tree.chunkCount false).last) :
    s.rootMaterial = s.tree.parentMaterial (s.tree.subtreeCv leaf (Nat.log2 c) 0)
      (s.tree.treeCv leaf 64 (2 ^ Nat.log2 c) (c + 1 - 2 ^ Nat.log2 c)) true := by
  have isLt : c < 2 ^ 64 := count ▸ s.tree.chunkCount.isLt
  have inside : Nat.log2 c < 64 := (Nat.log2_lt committed).2 isLt
  obtain ⟨one, zero, cut⟩ := div_mod_log2 committed
  have base := holds.entry count inside (by rw [Nat.testBit_eq_decide_div_mod_eq, one]; rfl)
  rw [zero, setBits_zero, Nat.zero_mul] at base
  have height := setBits_div_add_mod isLt (Nat.log2 c)
  have walk := holds.foldr_mergeWith count inside.le inside.le
  rw [one, show setBits 64 1 = 1 from rfl] at height walk
  have depth : s.tree.sp.toNat - 1 = setBits 64 (c % 2 ^ Nat.log2 c) := by
    rw [hsp, popcount64, count, height, Nat.add_sub_cancel_left]
  have many : c % 2 ^ Nat.log2 c + 1 = c + 1 - 2 ^ Nat.log2 c := by omega
  rw [rootMaterial_merge stacked, foldDown_eq_foldr, depth, ← tail, walk, base, Nat.one_mul, many]

end

/-- Settles O23: OUT is the compression, at counter 0, of the root of the left-leaning tree. -/
theorem finalizeBuildsTheLeftLeaningTree : Obligations.FinalizeBuildsTheLeftLeaningTree := by
  intro s leaf hsp committed holds tail len notEmpty
  have stacked : s.tree.sp ≠ 0 := by
    intro zero
    have pos := popcount64_pos committed
    rw [← hsp, zero] at pos
    exact absurd pos (by decide)
  have positive : s.tree.chunkCount.toNat ≠ 0 := fun zero => committed (BitVec.eq_of_toNat_eq zero)
  have root := holds.rootMaterial rfl hsp positive stacked tail
  refine ⟨_, execFinalize_ok len fun _ => notEmpty, root, ?_⟩
  exact congrArg s.rootMaterial.compress (if_neg stacked)

end Sys2Proof.Machine
end

section
/-! PROOFS. Which compressions of COMMIT and FINALIZE have ROOT (42_tree.md R162). -/

namespace Sys2Proof.Machine

/-- The base flags of a state of the invariant, being a mode's, have no ROOT (42_tree.md R150). -/
theorem State.Inv.base_root {s : State} (inv : s.Inv) : s.tree.baseFlags.getLsbD 3 = false :=
  inv.flags_of_mode ▸ modeFlags_root _

/-! ## The blocks of a chunk (41_chunk.md R134) -/

/-- The compressions of a chunk: those of the blocks before the last, then that of the last. -/
theorem ChunkIn.jobs_eq (c : ChunkIn) : c.jobs =
    ((List.range (blockCount c.len - 1)).map fun i => (c.block i (c.cvAt i), c.counter)) ++
      [(c.lastBlock, c.counter)] := by
  obtain ⟨n, count⟩ : ∃ n, blockCount c.len = n + 1 := Nat.exists_eq_add_one.2 (blockCount_pos c.len)
  rw [ChunkIn.jobs, ChunkIn.lastBlock, count, List.range_succ, List.map_append, Nat.add_sub_cancel]
  rfl

section
variable {c : ChunkIn} (base : c.base.getLsbD 3 = false)
include base

theorem block_isRoot (i : Nat) (cv : Cv) (counter : BitVec 64) :
    Job.isRoot (c.block i cv, counter) = (c.isRoot && i + 1 == blockCount c.len) := by
  rw [Job.isRoot, ChunkIn.block, blockFlags_root, base, Bool.false_or]

/-- No block before the last has ROOT. -/
theorem earlierBlocks_isRoot : ∀ j : Job, j ∈ (List.range (blockCount c.len - 1)).map
    (fun i => (c.block i (c.cvAt i), c.counter)) → j.isRoot = false := by
  intro j hj
  obtain ⟨i, hi, rfl⟩ := List.mem_map.1 hj
  rw [List.mem_range] at hi
  rw [block_isRoot base, beq_eq_false_iff_ne.2 (by omega), Bool.and_false]

/-- No block of a chunk that is not the root has ROOT. -/
theorem plainChunkJobs_isRoot (plain : c.isRoot = false) : ∀ j ∈ c.jobs, j.isRoot = false := by
  intro j hj
  obtain ⟨i, _, rfl⟩ := List.mem_map.1 hj
  rw [block_isRoot base, plain, Bool.false_and]

end

/-! ## Merges (42_tree.md R152) -/

section
variable {s : State} (base : s.tree.baseFlags.getLsbD 3 = false)
include base

theorem parentMaterial_isRoot (left right : Cv) (root : Bool) (counter : BitVec 64) :
    Job.isRoot (s.tree.parentMaterial left right root, counter) = root := by
  rw [Job.isRoot, Tree.parentMaterial, parentFlags_root, base, Bool.false_or]

theorem mergeJobs_isRoot (n : Nat) (res : Block) (sp : BitVec 7) :
    ∀ j ∈ s.mergeJobs n res sp, j.isRoot = false := by
  induction n generalizing res sp with
  | zero => exact List.forall_mem_nil _
  | succ n ih => exact List.forall_mem_cons.2 ⟨parentMaterial_isRoot base _ _ _ _, ih _ _⟩

theorem foldJobs_isRoot (n : Nat) (acc : Cv) : ∀ j ∈ s.foldJobs n acc, j.isRoot = false := by
  induction n generalizing acc with
  | zero => exact List.forall_mem_nil _
  | succ n ih => exact List.forall_mem_cons.2 ⟨parentMaterial_isRoot base _ _ _ _, ih _⟩

/-- No compression of COMMIT has ROOT. -/
theorem commitJobs_isRoot : ∀ j ∈ jobs .commit s, j.isRoot = false := by
  rw [jobs]
  split
  · exact List.forall_mem_nil _
  · exact List.forall_mem_append.2 ⟨plainChunkJobs_isRoot base rfl, mergeJobs_isRoot base _ _ _⟩

end

/-- Settles O25: of the compressions of a lone chunk the last block's has ROOT, and of those of a tree
the merge with the base of the stack. -/
theorem oneRootCompressionPerHash : Obligations.OneRootCompressionPerHash := by
  intro s inv
  have base := inv.base_root
  refine ⟨commitJobs_isRoot base, fun len nonempty => ?_⟩
  rw [jobs, if_neg (tail_ok len nonempty)]
  split
  · next lone => exact ⟨_, _, ChunkIn.jobs_eq _, lastBlock_root rfl, earlierBlocks_isRoot base⟩
  · next stacked =>
    refine ⟨_, _, rfl, rootMaterial_root s, List.forall_mem_append.2 ⟨?_, foldJobs_isRoot base _ _⟩⟩
    exact plainChunkJobs_isRoot base rfl

end Sys2Proof.Machine
end

section
/-! PROOFS. The chunks that the host procedure commits and finalizes (42_tree.md R163). -/

namespace Sys2Proof.Machine.Script

/-- Filling the buffer and setting its length issues no command. -/
theorem cmd_not_mem_fill (i : Instr) (bytes : List Byte) (v : Word) :
    .cmd i ∉ wrbuf bytes ++ [.wr .chunkLen v] := by
  intro h
  rcases List.mem_append.1 h with h | h
  · exact cmd_not_mem_wrbuf i bytes h
  · simp at h

/-- A script that issues `commits` COMMITs and then one FINALIZE, its last command, with CHUNK_LEN at
`tail`. -/
def EndsInFinalize (script : List Stmt) (commits tail : Nat) : Prop :=
  ∃ before, before.count (.cmd .commit) = commits ∧ .cmd .finalize ∉ before ∧
    script = before ++ [.wr .chunkLen (BitVec.ofNat 32 tail), .cmd .finalize, .wait]

theorem finishTail_endsInFinalize (bytes : List Byte) :
    EndsInFinalize (finishTail bytes) 0 bytes.length := by
  refine ⟨wrbuf bytes, List.count_eq_zero_of_not_mem (cmd_not_mem_wrbuf _ _), cmd_not_mem_wrbuf _ _, ?_⟩
  rw [finishTail, List.append_assoc]
  rfl

/-- Committing a chunk first is one COMMIT more. -/
theorem EndsInFinalize.commit {rest : List Stmt} {commits tail : Nat}
    (h : EndsInFinalize rest commits tail) (bytes : List Byte) (v : Word) :
    EndsInFinalize (wrbuf bytes ++ [.wr .chunkLen v] ++ run .commit ++ rest) (commits + 1) tail := by
  obtain ⟨before, count, noFinalize, rfl⟩ := h
  have fill (i : Instr) := cmd_not_mem_fill i bytes v
  have one : (run .commit).count (.cmd .commit) = 1 := by decide
  refine ⟨wrbuf bytes ++ [.wr .chunkLen v] ++ run .commit ++ before, ?_, ?_, (List.append_assoc ..).symm⟩
  · rw [List.count_append, List.count_append, List.count_eq_zero_of_not_mem (fill _), one, count]
    omega
  · rw [List.mem_append, List.mem_append, not_or, not_or]
    exact ⟨⟨fill _, by decide⟩, noFinalize⟩

/-- The procedure where more than one chunk is left: it commits the first. -/
theorem hashFuel_commit (fuel : Nat) {bytes : List Byte} (more : 1024 < bytes.length) :
    hashFuel (fuel + 1) bytes = wrbuf (bytes.take 1024) ++ [.wr .chunkLen 1024] ++ run .commit ++
      hashFuel fuel (bytes.drop 1024) :=
  if_pos more

/-- The procedure where one chunk is left: it finalizes it. -/
theorem hashFuel_finish (fuel : Nat) {bytes : List Byte} (last : bytes.length ≤ 1024) :
    hashFuel fuel bytes = finishTail bytes := by
  cases fuel with
  | zero => rfl
  | succ fuel => exact if_neg (Nat.not_lt.2 last)

/-- The procedure commits the full chunks that more bytes follow, and finalizes the rest. -/
theorem hashFuel_endsInFinalize {commits tail fuel : Nat} {bytes : List Byte}
    (length : bytes.length = 1024 * commits + tail) (fits : tail ≤ 1024) (follows : commits ≠ 0 → 0 < tail)
    (enough : commits ≤ fuel) : EndsInFinalize (hashFuel fuel bytes) commits tail := by
  induction commits generalizing fuel bytes with
  | zero =>
    obtain rfl : bytes.length = tail := by omega
    rw [hashFuel_finish fuel fits]
    exact finishTail_endsInFinalize bytes
  | succ commits ih =>
    have nonempty := follows (Nat.succ_ne_zero commits)
    obtain ⟨fuel, rfl⟩ : ∃ f, fuel = f + 1 := Nat.exists_eq_add_one.2 (by omega)
    have rest : (bytes.drop 1024).length = 1024 * commits + tail := by
      rw [List.length_drop]
      omega
    rw [hashFuel_commit fuel (by omega)]
    exact (ih rest (fun _ => nonempty) (Nat.le_of_succ_le_succ enough)).commit _ _

/-- Settles O57, for the commits and the tail of R163, which make up the length. -/
theorem hashCommitsAllButTheTail : Obligations.HashCommitsAllButTheTail := by
  intro bytes
  obtain ⟨before, commits, noFinalize, shape⟩ :=
    hashFuel_endsInFinalize (fuel := bytes.length) (bytes := bytes)
      (commits := (bytes.length + 1023) / 1024 - 1)
      (tail := bytes.length - 1024 * ((bytes.length + 1023) / 1024 - 1))
      (by omega) (by omega) (by omega) (by omega)
  refine ⟨?_, before, noFinalize, shape⟩
  rw [← List.countP_eq_length_filter, hash, shape, List.countP_append]
  exact commits

end Sys2Proof.Machine.Script
end

section
/-! PROOFS. The output material and OUTPUT (43_output.md). -/

namespace Sys2Proof.Machine

/-! ## OUTPUT and the output stream (43_output.md R182, R183) -/

/-- OUTPUT where there is output material (43_output.md R182). -/
theorem execOutput_ok {s : State} (valid : s.omv = true) :
    exec .output s = .next ((s.setOut (s.om.compress s.octr)).complete .none) := by
  rw [exec, execOutput_eq, valid]
  rfl

/-- Settles O27: the two ways OUTPUT ends. -/
theorem outputRecompressesTheRoot : Obligations.OutputRecompressesTheRoot := by
  refine ⟨fun s valid => execOutput_ok valid, fun s invalid => ?_⟩
  rw [exec, execOutput_eq, if_pos invalid]
  rfl

/-- Byte `64 j + 4 i + k` of the stream stands in word `i` of the block at counter `j`. -/
theorem streamByte_of_block (om : Material) (j : BitVec 64) (i : Fin 16) {k : Nat} (hk : k < 4) :
    om.streamByte (64 * j.toNat + 4 * i.val + k) = byteOf (om.compress j)[i] k := by
  have block : (64 * j.toNat + 4 * i.val + k) / 64 = j.toNat := by omega
  have word : (64 * j.toNat + 4 * i.val + k) % 64 / 4 = i.val := by omega
  have byte : (64 * j.toNat + 4 * i.val + k) % 64 % 4 = k := by omega
  rw [om.streamByte_of_lt (by rw [block]; exact j.isLt)]
  simp only [outputByte, block, word, byte, BitVec.ofNat_toNat, BitVec.setWidth_eq, Fin.getElem_fin]

/-- Settles O29: OUT is the block at the counter in OCTR. -/
theorem outputStreamIsTheBlocksInOrder : Obligations.OutputStreamIsTheBlocksInOrder := by
  intro s t i k hk valid h
  rw [execOutput_ok valid] at h
  cases h
  exact streamByte_of_block s.om s.octr i hk

/-! ## FINALIZE's OUT as output block 0 (43_output.md R184) -/

/-- The root compression has counter 0: a lone chunk is chunk 0, since an empty stack is that of no
committed chunk. -/
theorem State.Inv.rootCounter_eq_zero {s : State} (inv : s.Inv) : s.rootCounter = 0 := by
  unfold State.rootCounter
  split
  · next lone =>
    by_contra committed
    have pos := popcount64_pos committed
    rw [← inv.sp_popcount, lone] at pos
    exact absurd pos (by decide)
  · rfl

/-- A FINALIZE that leaves ERR at 0 has made the root material, and OUT from it. -/
theorem execFinalize_of_noError {s t : State} (h : exec .finalize s = .next t)
    (noError : t.status.err = false) :
    t.out = s.rootMaterial.compress s.rootCounter ∧ t.om = s.rootMaterial ∧ t.omv = true := by
  rw [exec, execFinalize_eq] at h
  cases h
  split at noError
  · simp at noError
  · next ok =>
    rw [if_neg ok]
    exact ⟨rfl, rfl, rfl⟩

/-- Settles O28: OUTPUT compresses the material that FINALIZE left, at FINALIZE's own counter, 0. -/
theorem finalizeLeavesOutputBlockZero : Obligations.FinalizeLeavesOutputBlockZero := by
  intro s t u inv finalize noError lo hi output
  obtain ⟨out, om, valid⟩ := execFinalize_of_noError finalize noError
  have regs : t.regs = s.regs := by rw [(exec_frame finalize).1]
  have counter : t.octr = 0 := by
    rw [State.octr, regs, hi, lo]
    rfl
  rw [execOutput_ok valid] at output
  cases output
  rw [out, inv.rootCounter_eq_zero, ← om, ← counter]
  rfl

/-! ## Which commands write the material (43_output.md R180, R181) -/

/-- Valid output material with ROOT, whose compression at some counter is OUT. -/
def State.HoldsRoot (s : State) : Prop :=
  s.omv = true ∧ s.om.flags.getLsbD 3 = true ∧ ∃ counter, s.out = s.om.compress counter

/-- What every root form does at its end, with a material that has ROOT. -/
theorem holdsRoot_of_write (s : State) {om : Material} (root : om.flags.getLsbD 3 = true)
    (counter : BitVec 64) : (((s.setOut (om.compress counter)).setMaterial om).complete .none).HoldsRoot :=
  ⟨rfl, root, counter, rfl⟩

/-- A root form that meets no check of its own ends with its root's material and output block. -/
theorem holdsRoot_of_exec {i : Instr} {s t : State} (h : exec i s = .next t)
    (ok : i = .parent true ∨ (i = .chunk true ∧ s.regs.chunkLen.toNat ≤ 1024) ∨
      (i = .finalize ∧ s.regs.chunkLen.toNat ≤ 1024 ∧
        (s.tree.chunkCount ≠ 0 → s.regs.chunkLen ≠ 0))) : t.HoldsRoot := by
  rcases ok with rfl | ⟨rfl, len⟩ | ⟨rfl, len, nonempty⟩
  · cases h
    exact holdsRoot_of_write s ((parentFlags_root _ _).trans (Bool.or_true _)) 0
  · rw [exec, execChunk_eq, if_neg (Nat.not_lt.2 len)] at h
    cases h
    exact holdsRoot_of_write s (lastBlock_root rfl) s.ctr
  · rw [execFinalize_ok len nonempty] at h
    cases h
    exact holdsRoot_of_write s (rootMaterial_root s) s.rootCounter

/-- A root form whose length fails its check ends with BAD_CHUNK_LEN and nothing else. -/
theorem exec_badChunkLen {i : Instr} {s : State}
    (bad : (i = .chunk true ∧ 1024 < s.regs.chunkLen.toNat) ∨
      (i = .finalize ∧ (1024 < s.regs.chunkLen.toNat ∨
        (s.tree.chunkCount ≠ 0 ∧ s.regs.chunkLen = 0)))) :
    exec i s = .next (s.complete .badChunkLen) := by
  rcases bad with ⟨rfl, long⟩ | ⟨rfl, length⟩
  · rw [exec, execChunk_eq, if_pos long]
  · rw [exec, execFinalize_eq, if_pos length]

/-- Settles O30: the plain forms are no writers of the material, and a root form either meets its
check or does not. -/
theorem onlyRootFormsWriteTheMaterial : Obligations.OnlyRootFormsWriteTheMaterial := by
  refine ⟨fun s t reset => ?reset, fun i s t h =>
    ⟨fun plain => ?plain, fun init => ?init, holdsRoot_of_exec h, fun bad => ?error⟩⟩
  case reset =>
    cases reset
    rfl
  case plain =>
    refine exec_material_same ?_ ?_ h <;>
      rcases plain with rfl | rfl | rfl | rfl | rfl <;> decide
  case init =>
    subst init
    cases h
    rfl
  case error =>
    rw [exec_badChunkLen bad] at h
    cases h
    exact ⟨by simp, rfl, rfl, rfl⟩

/-! ## The mode's base flags (43_output.md R191) -/

/-- The flag byte of a compression has the flags `base`. -/
def Job.Carries (base : Byte) (j : Job) : Prop := j.1.flags &&& base = base

/-- Every block of a chunk carries the chunk's base flags (41_chunk.md R134). -/
theorem chunkJobs_carry (c : ChunkIn) : ∀ j ∈ c.jobs, Job.Carries c.base j := by
  intro j hj
  obtain ⟨i, _, rfl⟩ := List.mem_map.1 hj
  exact blockFlags_base _ _ _ _

/-- Every merge of COMMIT carries the mode's base flags (42_tree.md R152). -/
theorem mergeJobs_carry (s : State) (n : Nat) (res : Block) (sp : BitVec 7) :
    ∀ j ∈ s.mergeJobs n res sp, Job.Carries s.tree.baseFlags j := by
  induction n generalizing res sp with
  | zero => exact List.forall_mem_nil _
  | succ n ih => exact List.forall_mem_cons.2 ⟨parentFlags_base _ _, ih _ _⟩

/-- Every plain merge of FINALIZE carries the mode's base flags (42_tree.md R152). -/
theorem foldJobs_carry (s : State) (n : Nat) (acc : Cv) :
    ∀ j ∈ s.foldJobs n acc, Job.Carries s.tree.baseFlags j := by
  induction n generalizing acc with
  | zero => exact List.forall_mem_nil _
  | succ n ih => exact List.forall_mem_cons.2 ⟨parentFlags_base _ _, ih _⟩

/-- Settles O31: the compressions of each command are blocks of a chunk, merges, the root's, and for
OUTPUT that of the material, which carries the base flags by the invariant. -/
theorem everyHashCompressionCarriesTheMode : Obligations.EveryHashCompressionCarriesTheMode := by
  intro i s j notCompress inv
  revert j
  change ∀ j ∈ jobs i s, Job.Carries s.tree.baseFlags j
  cases i with
  | compress => exact absurd rfl notCompress
  | init => exact List.forall_mem_nil _
  | chunk root =>
    rw [jobs]
    split
    · exact List.forall_mem_nil _
    · exact chunkJobs_carry (s.chunkIn s.ctr root)
  | parent root => exact List.forall_mem_singleton.2 (parentFlags_base _ _)
  | commit =>
    rw [jobs]
    split
    · exact List.forall_mem_nil _
    · exact List.forall_mem_append.2 ⟨chunkJobs_carry (s.chunkIn _ _), mergeJobs_carry s _ _ _⟩
  | finalize =>
    rw [jobs]
    split
    · exact List.forall_mem_nil _
    split
    · exact chunkJobs_carry (s.chunkIn s.tree.chunkCount true)
    · exact List.forall_mem_append.2
        ⟨List.forall_mem_append.2 ⟨chunkJobs_carry (s.chunkIn _ _), foldJobs_carry s _ _⟩,
          List.forall_mem_singleton.2 (rootMaterial_base s)⟩
  | output =>
    rw [jobs]
    split
    · next valid => exact List.forall_mem_singleton.2 ((inv rfl).om_mode valid)
    · exact List.forall_mem_nil _

end Sys2Proof.Machine
end

section
/-! PROOFS. Errors, the interrupt output, OVR, and what happens in one cycle (60_exceptions.md). -/

namespace Sys2Proof.Machine

/-! ## How a command word ends (60_exceptions.md R203) -/

/-- Everything the completion of a word can do, legal or not: it ends with a code, having written OUT,
the tree and the output material at most, and none of them where the code is an error. -/
theorem executeWord_shape (c : Word) (s : State) :
    ∃ code out tree om omv,
      executeWord c s = .next ({ s with out := out, tree := tree, om := om, omv := omv }.complete code) ∧
      (code ≠ .none → out = s.out ∧ tree = s.tree ∧ om = s.om ∧ omv = s.omv) := by
  rcases executeWord_cases c s with ⟨i, _, legal⟩ | ⟨_, _, illegal⟩
  · rw [legal]
    exact exec_shape i s
  · exact ⟨.illegalCmd, _, _, _, _, illegal, fun _ => ⟨rfl, rfl, rfl, rfl⟩⟩

/-- The engine's turn while a command is pending. -/
theorem happen_engine_shape {s t : State} (busy : s.busy = true) (h : happen .engine s = .next t) :
    ∃ code out tree om omv,
      t = { s with out := out, tree := tree, om := om, omv := omv }.complete code ∧
      (code ≠ .none → out = s.out ∧ tree = s.tree ∧ om = s.om ∧ omv = s.omv) := by
  obtain ⟨c, pending⟩ := s.busy_iff.1 busy
  obtain ⟨code, out, tree, om, omv, completion, precise⟩ := executeWord_shape c s
  rw [happen_engine_eq pending, completion] at h
  cases h
  exact ⟨code, out, tree, om, omv, rfl, precise⟩

/-- Where ERRCODE was cleared at issue it is the code the command ends with. -/
theorem complete_errCode_of_clear {s : State} (clear : s.status.errCode = .none) (code : ErrCode) :
    (s.complete code).status.errCode = code := by
  rw [State.complete_errCode, clear]
  split
  · next noError => exact noError.symm
  · rfl

theorem complete_of_error (s : State) {code : ErrCode} (error : code ≠ .none) :
    s.complete code = { s with
      pending := none
      status := { s.status with done := true, err := true, errCode := code } } := by
  rw [State.complete, if_neg error]

/-- Settles O34: a completion with an error's code has written nothing before it. -/
theorem errorsChangeOnlyStatus : Obligations.ErrorsChangeOnlyStatus := by
  intro s t busy clear h error
  obtain ⟨code, out, tree, om, omv, rfl, precise⟩ := happen_engine_shape busy h
  have reports : code ≠ .none := by
    rintro rfl
    exact error clear
  obtain ⟨rfl, rfl, rfl, rfl⟩ := precise reports
  rw [complete_of_error _ reports]

/-! ## The codes of the table (60_exceptions.md R201, R202) -/

/-- A command that makes one check reports the check's code where it fails, and none where it passes. -/
theorem errCode_of_check {p : Prop} [Decidable p] {s u : State} (code : ErrCode)
    (clear : s.status.errCode = .none) (clear' : u.status.errCode = .none) :
    (if p then s.complete code else u.complete .none).status.errCode = if p then code else .none := by
  split
  · exact complete_errCode_of_clear clear code
  · exact complete_errCode_of_clear clear' .none

/-- COMMIT's two checks, as the table writes them. -/
theorem commit_checks_iff (s : State) :
    (s.regs.chunkLen ≠ 1024 ↔ s.regs.chunkLen.toNat ≠ 1024) ∧
    (s.tree.chunkCount = BitVec.allOnes 64 ↔ s.tree.chunkCount.toNat = 2 ^ 64 - 1) := by
  simp [← BitVec.toNat_inj]

/-- FINALIZE's check, as the table writes it. -/
theorem finalize_check_iff (s : State) :
    (1024 < s.regs.chunkLen.toNat ∨ (s.tree.chunkCount ≠ 0 ∧ s.regs.chunkLen = 0)) ↔
      1024 < s.regs.chunkLen.toNat ∨ (s.regs.chunkLen.toNat = 0 ∧ 1 ≤ s.tree.chunkCount.toNat) := by
  simp [← BitVec.toNat_inj, Nat.one_le_iff_ne_zero, and_comm]

/-- Settles O33: an illegal word by its one outcome, and each command by the checks it makes, in their
order. -/
theorem errorsAreThoseOfTheTable : Obligations.ErrorsAreThoseOfTheTable := by
  refine ⟨fun w s t illegal h => ?illegal, fun i s t clear h => ?legal⟩
  case illegal =>
    rw [executeWord_illegal illegal] at h
    cases h
    exact State.complete_errCode s _
  case legal =>
    rw [executeWord_legal (decode_encode i)] at h
    cases i with
    | compress =>
      rw [exec, execCompress_eq] at h
      cases h
      exact errCode_of_check .badBlockLen clear clear
    | init =>
      cases h
      exact clear
    | chunk root =>
      rw [exec, execChunk_eq] at h
      cases h
      refine errCode_of_check .badChunkLen clear ?_
      cases root <;> exact clear
    | parent root =>
      cases h
      cases root <;> exact clear
    | commit =>
      obtain ⟨length, count⟩ := commit_checks_iff s
      rw [exec, execCommit_eq] at h
      simp only [length, count] at h
      cases h
      dsimp only
      split
      · exact complete_errCode_of_clear clear .badChunkLen
      · exact errCode_of_check .countOverflow clear clear
    | finalize =>
      rw [exec, execFinalize_eq] at h
      simp only [finalize_check_iff s] at h
      cases h
      exact errCode_of_check .badChunkLen clear clear
    | output =>
      rw [exec, execOutput_eq] at h
      cases h
      cases s.omv with
      | false => exact complete_errCode_of_clear clear .noOutput
      | true => exact clear

/-! ## The interrupt output (60_exceptions.md R206) -/

theorem happen_write_status (s : State) (v : Word) :
    happen (.write 0x004 4 v) s = .next (s.writeStatus v) :=
  happen_write_eq (by decide) (by decide) v

theorem happen_write_ctrl (s : State) (v : Word) :
    happen (.write 0x008 4 v) s = .next { s with irqEn := v.getLsbD 0 } :=
  happen_write_eq (by decide) (by decide) v

theorem irq_of_not_done {s : State} (notDone : s.status.done = false) : s.irq = false := by
  rw [State.irq, notDone, Bool.and_false]

/-- Settles O46: a completion sets DONE and leaves IRQ_EN, an issue, an acknowledgement and a reset
clear DONE, and a CTRL write leaves it. -/
theorem irqFollowsEnableAndDone : Obligations.IrqFollowsEnableAndDone := by
  refine ⟨fun s => rfl, fun s t enabled busy h => ?completion, fun s t c idle h => ?issue,
    fun s t v clears h => ?status, fun s t v h => ?ctrl, fun s t h => ?reset⟩
  case completion =>
    obtain ⟨code, out, tree, om, omv, rfl, _⟩ := happen_engine_shape busy h
    rw [State.irq, State.complete_done, State.complete_irqEn, enabled]
    rfl
  case issue =>
    rw [happen_issue idle] at h
    cases h
    exact irq_of_not_done rfl
  case status =>
    rw [happen_write_status] at h
    cases h
    exact irq_of_not_done (if_pos clears)
  case ctrl =>
    rw [happen_write_ctrl] at h
    cases h
    rfl
  case reset =>
    cases h
    rfl

/-! ## OVR (60_exceptions.md R205) -/

/-- The one register write that clears OVR is a 1 in bit 3 of STATUS. -/
theorem writeReg_ovr {s : State} (ovr : s.status.ovr = true) (r : Reg) (v : Word) :
    (s.writeReg r v).status.ovr = true ∨
      (r = .status ∧ v.getLsbD 3 = true ∧ (s.writeReg r v).status.ovr = false) := by
  obtain ⟨regs, mem, store⟩ := s.storeReg_eq r v
  rcases s.writeReg_cases r v with h | ⟨status, h⟩ | ⟨_, h⟩ | ⟨_, h⟩ | ⟨_, _, h⟩ | ⟨_, h⟩
  · exact .inl (by rw [h]; exact ovr)
  · rw [h, writeStatus_eq]
    cases bit : v.getLsbD 3
    · exact .inl (by simp [ovr])
    · exact .inr ⟨status, rfl, by simp⟩
  · exact .inl (by rw [h]; exact ovr)
  · exact .inl (by rw [h]; rfl)
  · exact .inl (by rw [h]; exact ovr)
  · exact .inl (by rw [h, store]; exact ovr)

/-- Settles O47, by what each event can do: a read and a completion leave OVR, and a write does but for
the one that clears it. -/
theorem overrunIsSticky : Obligations.OverrunIsSticky := by
  intro e s t ovr h
  rcases happen_cases h with ⟨_, _, _, _, rfl⟩ | ⟨off, size, v, rfl, admitted, rfl⟩ | ⟨_, _, rfl⟩ |
    ⟨c, rfl, pending, _⟩ | ⟨reset, _⟩
  · exact .inl ovr
  · refine (writeReg_ovr ovr (regAt off) v).imp_right fun ⟨status, bit, cleared⟩ => .inr ?_
    obtain ⟨rfl, aligned, inside⟩ := wfAccess_iff.1 admitted
    have place : off = 0x004 := by rw [← offset_regAt aligned inside, status, Reg.offset]
    exact ⟨v, by rw [place], bit, cleared⟩
  · exact .inl ovr
  · obtain ⟨code, out, tree, om, omv, rfl, _⟩ := happen_engine_shape (s.busy_of_pending pending) h
    exact .inl ((State.complete_ovr _ code).trans ovr)
  · exact .inr (.inl reset)

/-! ## Runs (60_exceptions.md R219) -/

theorem writeReg_inputs (s : State) (r : Reg) (v : Word) : (s.writeReg r v).inputs = s.inputs := by
  obtain ⟨regs, mem, store⟩ := s.storeReg_eq r v
  rcases s.writeReg_cases r v with h | ⟨_, h⟩ | ⟨_, h⟩ | ⟨_, h⟩ | ⟨_, _, h⟩ | ⟨_, h⟩ <;>
    simp [h, store]

/-- An event leaves the events that come after it. -/
theorem happen_inputs {e : Event} {s t : State} (h : happen e s = .next t) : t.inputs = s.inputs := by
  rcases happen_cases h with ⟨_, _, _, _, rfl⟩ | ⟨off, _, v, _, _, rfl⟩ | ⟨_, _, rfl⟩ |
    ⟨c, rfl, pending, _⟩ | ⟨_, rfl⟩
  · rfl
  · exact writeReg_inputs s _ v
  · rfl
  · obtain ⟨code, out, tree, om, omv, rfl, _⟩ := happen_engine_shape (s.busy_of_pending pending) h
    rfl
  · rfl

/-- Where every access still to happen exists, a step leads to a state of the same kind. -/
theorem step_next {s : State} (exist : ∀ e ∈ s.inputs, e.wf = true) :
    ∃ t, step s = .next t ∧ ∀ e ∈ t.inputs, e.wf = true := by
  cases events : s.inputs with
  | nil =>
    obtain ⟨t, h⟩ := happen_next (e := .engine) rfl s
    exact ⟨t, (step_eq_happen_engine events).trans h, happen_inputs h ▸ exist⟩
  | cons e rest =>
    rw [events] at exist
    obtain ⟨first, others⟩ := List.forall_mem_cons.1 exist
    obtain ⟨t, h⟩ := happen_next first { s with inputs := rest }
    exact ⟨t, (step_cons events).trans h, happen_inputs h ▸ others⟩

/-- Settles O54, by induction on the number of steps. -/
theorem noRunOfExistingAccessesStops : Obligations.NoRunOfExistingAccessesStops := by
  intro s exist k
  induction k generalizing s with
  | zero => exact ⟨s, rfl⟩
  | succ k ih =>
    obtain ⟨t, next, exist'⟩ := step_next exist
    rw [core_run_succ next]
    exact ih t exist'

/-! ## One cycle (60_exceptions.md R208) -/

/-- While a command is pending no register write issues another or ends it. -/
theorem writeReg_pending_of_busy {s : State} (busy : s.busy = true) (r : Reg) (v : Word) :
    (s.writeReg r v).pending = s.pending := by
  rcases s.writeReg_cases r v with h | ⟨_, h⟩ | ⟨_, h⟩ | ⟨_, h⟩ | ⟨idle, _⟩ | ⟨idle, _⟩
  · rw [h]
  · rw [h, State.writeStatus_pending]
  · rw [h]
  · rw [h, State.overrun_pending]
  all_goals simp [busy] at idle

/-- The access of a cycle exists (10_state.md R22). -/
theorem wfAccess_of_addr (addr : BitVec 10) : wfAccess (4 * addr.toNat) 4 = true :=
  wfAccess_iff.2 ⟨rfl, Nat.mul_mod_right _ _, by omega⟩

/-- A cycle whose address is not the register's word address accesses another register. -/
theorem regAt_addr_ne {addr a : BitVec 10} {r : Reg} (place : r.offset = 4 * a.toNat) (h : addr ≠ a) :
    regAt (4 * addr.toNat) ≠ r := by
  refine regAt_ne_of_offset_ne (Nat.mul_mod_right _ _) fun same => h (BitVec.eq_of_toNat_eq ?_)
  omega

theorem PortCycle.events_write {p : PortCycle} (up : p.rstN = true) (sel : p.sel = true)
    (finishes : p.finishes = true) (we : p.we = true) :
    p.events = [.write (4 * p.addr.toNat) 4 p.wdata, .engine] := by
  simp [PortCycle.events, PortCycle.access, up, sel, finishes, we]

theorem PortCycle.events_read {p : PortCycle} (up : p.rstN = true) (sel : p.sel = true)
    (finishes : p.finishes = true) (we : p.we = false) :
    p.events = [.read (4 * p.addr.toNat) 4, .engine] := by
  simp [PortCycle.events, PortCycle.access, up, sel, finishes, we]

/-- The completion at the end of a cycle: it leaves the block idle with DONE set, and OVR and the read
data as the access before it left them. -/
theorem happenAll_access_completion {e : Event} {s u t : State} (access : happen e s = .next u)
    (busy : u.busy = true) (h : happenAll [e, .engine] s = .next t) :
    t.busy = false ∧ t.status.done = true ∧ t.status.ovr = u.status.ovr ∧ t.rdata = u.rdata := by
  rw [happenAll_cons_next access] at h
  obtain ⟨_, completion, last⟩ := happenAll_cons h
  cases last
  obtain ⟨code, out, tree, om, omv, rfl, _⟩ := happen_engine_shape busy completion
  exact ⟨rfl, State.complete_done _ _, State.complete_ovr _ _, rfl⟩

/-- Settles O55: a reset cycle is a reset alone, and in any other the completion comes after the
access, which leaves the command pending. -/
theorem accessActsBeforeACompletionInItsCycle :
    Obligations.AccessActsBeforeACompletionInItsCycle := by
  refine ⟨fun s p low => ?reset, fun s t p up sel finishes busy h => ?access⟩
  case reset =>
    simp only [PortCycle.events, low]
    rfl
  case access =>
    cases we : p.we with
    | false =>
      rw [PortCycle.events_read up sel finishes we] at h
      have read : happen (.read (4 * p.addr.toNat) 4) s = .next _ :=
        busRead_next (wfAccess_of_addr p.addr) s
      obtain ⟨idle, done, _, rdata⟩ := happenAll_access_completion read busy h
      exact ⟨idle, done, fun write => (nomatch write), fun _ => rdata⟩
    | true =>
      rw [PortCycle.events_write up sel finishes we] at h
      have write : happen (.write (4 * p.addr.toNat) 4 p.wdata) s = .next _ :=
        busWrite_next (wfAccess_of_addr p.addr) p.wdata s
      have busy' : (s.writeReg (regAt (4 * p.addr.toNat)) p.wdata).busy = true := by
        rw [State.busy, writeReg_pending_of_busy busy]
        exact busy
      obtain ⟨idle, done, ovr, _⟩ := happenAll_access_completion write busy' h
      refine ⟨idle, done, fun _ writable notStatus notCtrl => ?_, fun read => (nomatch read)⟩
      rw [ovr, writeReg_busy p.wdata writable (regAt_addr_ne (a := 1) rfl notStatus)
        (regAt_addr_ne (a := 2) rfl notCtrl) busy]
      rfl

end Sys2Proof.Machine
end

section
/-! PROOFS. Reset, how many compressions each command performs, and the completion of a pending
command (70_reset_and_hazards.md). -/

namespace Sys2Proof.Machine

/-! ## Reset (70_reset_and_hazards.md R230 to R232) -/

/-- STATUS reads as zero after a reset, whatever the free values it draws (R231). -/
theorem statusWord_afterReset (draw : Nat) (inputs : List Event) :
    (State.afterReset draw inputs).statusWord = 0 := by
  simp [State.statusWord, State.afterReset, State.busy, ErrCode.bits]

/-- Settles O48: the reset state is the same for every draw of the free values, and a reset cycle is a
reset alone. -/
theorem resetGivesTheResetState : Obligations.ResetGivesTheResetState := by
  unfold Obligations.ResetGivesTheResetState
  intro isReset
  have reset (draw : Nat) (inputs : List Event) : isReset (State.afterReset draw inputs) :=
    ⟨rfl, statusWord_afterReset draw inputs, rfl, rfl, rfl, rfl, rfl, rfl, rfl, rfl, rfl, rfl⟩
  refine ⟨reset 0 [], fun s p low => ⟨s.resetNow, ?_, reset _ _, rfl, rfl⟩⟩
  exact accessActsBeforeACompletionInItsCycle.1 s p low

/-- Settles O49: INIT with MODE 0 latches the IV and no flags. -/
theorem resetIsPlainInit : Obligations.ResetIsPlainInit := by
  intro s t plain h
  rw [exec, execInit_eq, plain, modeKeyCv_of_plain _ (.inl rfl)] at h
  cases h
  exact ⟨rfl, rfl, rfl, rfl, rfl, rfl⟩

/-- Settles O50: the machine right after reset is in the state of reset number 0. -/
theorem resetMeetsTheInvariant : Obligations.ResetMeetsTheInvariant := afterReset_inv 0 []

/-! ## The compressions of each command (70_reset_and_hazards.md R243) -/

/-- The chunk in the buffer takes one compression for each block of CHUNK_LEN (41_chunk.md R131). -/
@[simp] theorem length_chunkJobs (s : State) (counter : BitVec 64) (root : Bool) :
    (s.chunkIn counter root).jobs.length = blockCount s.regs.chunkLen.toNat := by
  rw [ChunkIn.jobs, List.length_map, List.length_range]
  rfl

@[simp] theorem length_mergeJobs (s : State) (n : Nat) (res : Block) (sp : BitVec 7) :
    (s.mergeJobs n res sp).length = n := by
  induction n generalizing res sp with
  | zero => rfl
  | succ n ih => rw [State.mergeJobs, List.length_cons, ih]

@[simp] theorem length_foldJobs (s : State) (n : Nat) (acc : Cv) : (s.foldJobs n acc).length = n := by
  induction n generalizing acc with
  | zero => rfl
  | succ n ih => rw [State.foldJobs, List.length_cons, ih]

/-- COMMIT of a full chunk below the largest count does the chunk's 16 blocks and the merges. -/
theorem length_commitJobs {s : State}
    (ok : ¬ (s.regs.chunkLen ≠ 1024 ∨ s.tree.chunkCount = BitVec.allOnes 64)) :
    (jobs .commit s).length = 16 + ctz64 (s.tree.chunkCount + 1) := by
  obtain ⟨full, _⟩ := not_or.1 ok
  have blocks : blockCount s.regs.chunkLen.toNat = 16 := by rw [not_not.1 full]; rfl
  rw [jobs, if_neg ok, List.length_append, length_chunkJobs, length_mergeJobs, blocks]

/-- FINALIZE of a length it accepts does the chunk's blocks and one merge for each stack entry, the
last of them the root's. -/
theorem length_finalizeJobs {s : State}
    (ok : ¬ (1024 < s.regs.chunkLen.toNat ∨ (s.tree.chunkCount ≠ 0 ∧ s.regs.chunkLen = 0))) :
    (jobs .finalize s).length = blockCount s.regs.chunkLen.toNat + s.tree.sp.toNat := by
  rw [jobs, if_neg ok]
  split
  · next lone =>
    rw [length_chunkJobs, lone]
    rfl
  · next stacked =>
    have entries : s.tree.sp.toNat ≠ 0 := fun empty => stacked (BitVec.eq_of_toNat_eq empty)
    rw [List.length_append, List.length_append, length_chunkJobs, length_foldJobs,
      List.length_singleton]
    omega

/-- Settles O39, command by command: the checks that end a command with an error, as the table of R201
writes them, are those under which it performs no compression. -/
theorem workOfEachCommand : Obligations.WorkOfEachCommand := by
  intro i s t clear h
  rw [← executeWord_legal (decode_encode i)] at h
  rw [errorsAreThoseOfTheTable.2 i s t clear h]
  cases i with
  | compress =>
    rw [jobs]
    split <;> rfl
  | init => rfl
  | chunk root =>
    rw [jobs]
    split
    · rfl
    · exact length_chunkJobs s s.ctr root
  | parent root => rfl
  | commit =>
    obtain ⟨length, count⟩ := commit_checks_iff s
    simp only [← length, ← count]
    by_cases len : s.regs.chunkLen ≠ 1024
    · rw [jobs, if_pos (.inl len), if_pos len]
      rfl
    by_cases largest : s.tree.chunkCount = BitVec.allOnes 64
    · rw [jobs, if_pos (.inr largest), if_neg len, if_pos largest]
      rfl
    rw [if_neg len, if_neg largest]
    exact length_commitJobs (not_or.2 ⟨len, largest⟩)
  | finalize =>
    simp only [← finalize_check_iff s]
    by_cases bad : 1024 < s.regs.chunkLen.toNat ∨ (s.tree.chunkCount ≠ 0 ∧ s.regs.chunkLen = 0)
    · rw [jobs, if_pos bad, if_pos bad]
      rfl
    · rw [if_neg bad]
      exact length_finalizeJobs bad
  | output =>
    rw [jobs]
    cases s.omv <;> rfl

/-! ## A pending command completes (30_encoding.md R84, 70_reset_and_hazards.md R244) -/

/-- While a command is pending, an event that is no reset leaves it pending or completes it. -/
theorem happen_of_busy {e : Event} {s t : State} (busy : s.busy = true) (noReset : e ≠ .reset)
    (h : happen e s = .next t) :
    t.busy = true ∨ (t.busy = false ∧ t.status.done = true) := by
  rcases happen_cases h with ⟨_, _, _, _, rfl⟩ | ⟨off, _, v, _, _, rfl⟩ | ⟨_, _, rfl⟩ |
    ⟨c, _, _, completion⟩ | ⟨reset, _⟩
  · exact .inl busy
  · left
    rw [State.busy, writeReg_pending_of_busy busy]
    exact busy
  · exact .inl busy
  · obtain ⟨done, idle⟩ := executeWord_completes completion
    exact .inr ⟨t.busy_of_none idle, done⟩
  · exact absurd reset noReset

/-- With a command pending and no event left, one step completes it. -/
theorem step_completes {s : State} (busy : s.busy = true) (last : s.inputs = []) :
    ∃ t, step s = .next t ∧ t.busy = false ∧ t.status.done = true := by
  obtain ⟨t, completion⟩ := happen_next (e := .engine) rfl s
  obtain ⟨c, pending⟩ := s.busy_iff.1 busy
  obtain ⟨done, idle⟩ := executeWord_completes ((happen_engine_eq pending).symm.trans completion)
  exact ⟨t, (step_eq_happen_engine last).trans completion, t.busy_of_none idle, done⟩

/-- Settles O53, by induction on the events still to happen: each leaves the command pending or
completes it, and once none is left the next step is the completion. -/
theorem pendingCommandsComplete : Obligations.PendingCommandsComplete := by
  intro s busy events
  induction inputs : s.inputs generalizing s with
  | nil =>
    obtain ⟨t, next, finished⟩ := step_completes busy inputs
    exact ⟨1, Nat.le_refl 1, t, core_run_succ next 0, finished⟩
  | cons e rest ih =>
    rw [inputs] at events
    obtain ⟨⟨exist, noReset⟩, others⟩ := List.forall_mem_cons.1 events
    obtain ⟨u, event⟩ := happen_next exist { s with inputs := rest }
    have next : step s = .next u := (step_cons inputs).trans event
    rcases happen_of_busy (s := { s with inputs := rest }) busy noReset event with busy' | finished
    · have inputs' : u.inputs = rest := happen_inputs event
      obtain ⟨k, bound, t, run, finished⟩ := ih u busy' (inputs' ▸ others) inputs'
      exact ⟨k + 1, Nat.succ_le_succ bound, t, (core_run_succ next k).trans run, finished⟩
    · exact ⟨1, Nat.le_add_left 1 _, u, core_run_succ next 0, finished⟩

end Sys2Proof.Machine
end
